-- ==== Sys2Proof/Word.lean ====
section
/-! DEFINITION. The word types of the NTP timestamp block (00_scope.md R5, R6). -/

namespace Sys2Proof

/-- One byte of the packet buffer (10_state.md R33). -/
abbrev Byte := BitVec 8

/-- One 32-bit bus word or command word (20_memory.md R61, 30_encoding.md R100). -/
abbrev Word := BitVec 32

/-- One 64-bit register: a 32.32 timestamp, interval or zero-extended short value (10_state.md R20). -/
abbrev DWord := BitVec 64

end Sys2Proof
end

