-- ==== Sys2Proof/Config.lean ====
section
/-! DEFINITION. The fixed sizes and hardwired values of the block (00_scope.md R5).
The one OPEN parameter, BLOCK_BASE, is the field `base` of the state (log 3), so that every
statement about a state holds for every base. The spec leaves no result of a command open, so there
is no free value here. -/

namespace Sys2Proof.Config

/-- ID, hardwired to the ASCII bytes of SNTP (10_state.md R26). -/
abbrev idWord : Word := 0x534E5450#32

/-- The byte offset of the transmit timestamp in the packet buffer (10_state.md R27). -/
abbrev txOffset : Nat := 40

/-- The size of the packet buffer in bytes, and the datagram length DEC accepts (00_scope.md R5). -/
abbrev packetBytes : Nat := 48

/-- The size of the register window in bytes (00_scope.md R5). -/
abbrev windowBytes : Nat := 4096

/-- The width of every legal bus access in bits (20_memory.md R61). -/
abbrev busBits : Nat := 32

/-- Nanoseconds in a second: a valid duration has fewer (10_state.md R30). -/
abbrev nanosPerSecond : Nat := 1000000000

end Sys2Proof.Config
end

