-- ==== Sys2Proof/Syntax.lean ====
section
/-! DEFINITION. The commands of the block: one constructor per row of spec/opcode_table.json
(30_encoding.md R104), with the fields the row uses. -/

namespace Sys2Proof

/-- The eight general registers (10_state.md R20, 30_encoding.md R115). -/
inductive Reg where
  | x0 | x1 | x2 | x3 | x4 | x5 | x6 | x7
  deriving DecidableEq, Repr

/-- The four timestamp slots of the packet (30_encoding.md R103, R116): reference, originate,
receive, transmit. -/
inductive Slot where
  | ref | org | rx | tx
  deriving DecidableEq, Repr

/-- The thirteen reply registers RP0 to RP12 under their names (10_state.md R32, 30_encoding.md R116). -/
inductive ReplyReg where
  | li | vn | mode | stratum | poll | prec | rootdelay | rootdisp | refid
  | refts | orgts | rxts | txts
  deriving DecidableEq, Repr

/-- The 17 commands (30_encoding.md R104). VN, MODE and SEL are the raw sub-fields of IMM
(30_encoding.md R103); SEL is checked by `Instr.wellFormed`. -/
inductive Instr where
  | nop
  | enc (rs1 : Reg) (vn : BitVec 3) (mode : BitVec 3)
  | dec
  | setts (rs1 : Reg) (slot : Slot)
  | getts (rd : Reg) (slot : Slot)
  | rpget (rd : Reg) (sel : BitVec 4)
  | ts2d (rs1 : Reg)
  | u2d (rs1 : Reg)
  | s2d (rs1 : Reg)
  | h2d (rs1 : Reg)
  | d2ts (rd : Reg)
  | d2u (rd : Reg)
  | d2s (rd : Reg)
  | d2h (rd : Reg)
  | tsub (rd rs1 rs2 : Reg)
  | offset (rd rs1 rs2 rs3 rs4 : Reg)
  | delay (rd rs1 rs2 rs3 rs4 : Reg)
  deriving DecidableEq, Repr

/-- The 17 opcodes, named as the rows of 30_encoding.md R104. -/
inductive Opcode where
  | nop | enc | dec | setts | getts | rpget
  | ts2d | u2d | s2d | h2d | d2ts | d2u | d2s | d2h
  | tsub | offset | delay
  deriving DecidableEq, Repr

end Sys2Proof
end

