-- ==== Sys2Proof/Machine/State.lean ====
section
/-! DEFINITION. The state of the machine as plain data: the block's registers and packet buffer
(10_state.md R20 to R35), the place of its window, and the host's accesses still to come. -/

namespace Sys2Proof.Machine

/-! ## Why a step can stop -/

/-- The faults: the three kinds of bus error of 20_memory.md R61. -/
inductive Fault where
  /-- Raised by a host access of a width other than 32 bits (20_memory.md R61). Safe: the spec says
  the faulted run is never a successful final state (60_exceptions.md R256). -/
  | wrongWidth
  /-- Raised by a 32-bit host access at an offset that is no multiple of 4 (20_memory.md R61). Safe, as above. -/
  | misaligned
  /-- Raised by an aligned 32-bit host access at an offset with no row in 20_memory.md R60. Safe, as above. -/
  | unmapped
  deriving DecidableEq, Repr

/-- The refusals: what the model does not say. -/
inductive Refusal where
  /-- Raised by a dispatch arm whose instruction has no meaning yet; no arm of this model is one. Safe. -/
  | notModelled (mnemonic : String)
  /-- Raised by a host access at an address outside the block's window: it is an access to some other
  device, of which the spec says nothing (log 4). Safe: the model stops. -/
  | outsideWindow
  deriving DecidableEq, Repr

/-! ## The block -/

/-- The general registers that have storage, X1 to X7; X0 is hardwired to 0 (10_state.md R20). -/
structure GRegs where
  x1 : DWord
  x2 : DWord
  x3 : DWord
  x4 : DWord
  x5 : DWord
  x6 : DWord
  x7 : DWord
  deriving DecidableEq, Repr

/-- The result codes of STATUS.ERR; codes 7 to 15 are never written (10_state.md R23). -/
inductive Code where
  | ok | malformed | invmode | kod | unsync | range | illegal
  deriving DecidableEq, Repr

/-- STATUS without its reserved bits, which read 0 (10_state.md R22). -/
structure Status where
  err : Code
  wUnsync : Bool
  wNegdly : Bool
  rpv : Bool
  deriving DecidableEq, Repr

/-- CTRL without its reserved bits, which read 0 and are not written (10_state.md R25). -/
structure Ctrl where
  unsyncFatal : Bool
  eraMode : Bool
  era : BitVec 8
  deriving DecidableEq, Repr

/-- The duration register D (10_state.md R30). -/
structure Duration where
  neg : Bool
  nanos : Word
  secs : DWord
  deriving DecidableEq, Repr

/-- The reply registers RP0 to RP12 under their names (10_state.md R32). -/
structure ReplyRegs where
  li : DWord
  vn : DWord
  mode : DWord
  stratum : DWord
  poll : DWord
  prec : DWord
  rootdelay : DWord
  rootdisp : DWord
  refid : DWord
  refts : DWord
  orgts : DWord
  rxts : DWord
  txts : DWord
  deriving DecidableEq, Repr

/-- Byte storage: the listed bytes by address, rising, none of them equal to what an unlisted
address reads as (`Memory.wf`, log 7). -/
abbrev Memory := List Host.Cell

/-- Every piece of state the spec gives the block (10_state.md R35). -/
structure Block where
  x : GRegs
  ctrl : Ctrl
  status : Status
  rxLen : Word
  d : Duration
  rp : ReplyRegs
  pkt : Memory
  deriving DecidableEq, Repr

/-! ## The host -/

/-- What the host, or the platform's reset signal, can do to the block (20_memory.md R60, R61;
70_reset_and_hazards.md R281). `bits` is the width of the access and `addr` its host bus address. -/
inductive HostEvent where
  | read (bits addr : Nat)
  | write (bits addr : Nat) (data : Word)
  | reset
  deriving DecidableEq, Repr

/-- The machine: the block, the base address of its window (the OPEN parameter BLOCK_BASE, log 3), the
host's events not yet performed, oldest first (log 1), and the values bus reads returned, newest
first (log 2). -/
structure State where
  block : Block
  base : Nat
  pending : List HostEvent
  reads : List Word
  deriving DecidableEq, Repr

/-! ## Reset (70_reset_and_hazards.md R280) -/

/-- Every piece of the block's state at the value its rule gives for reset. -/
def Block.reset : Block where
  x := { x1 := 0, x2 := 0, x3 := 0, x4 := 0, x5 := 0, x6 := 0, x7 := 0 }
  ctrl := { unsyncFatal := true, eraMode := false, era := 0 }
  status := { err := .ok, wUnsync := false, wNegdly := false, rpv := false }
  rxLen := 0
  d := { neg := false, nanos := 0, secs := 0 }
  rp :=
    { li := 0, vn := 0, mode := 0, stratum := 0, poll := 0, prec := 0, rootdelay := 0, rootdisp := 0,
      refid := 0, refts := 0, orgts := 0, rxts := 0, txts := 0 }
  pkt := []

/-- The machine right after reset, with no host access waiting. The base is the model's choice, and no
statement rests on it (DESIGN CHOICE, log 3); so are the empty lists (DESIGN CHOICE, logs 1 and 2). -/
def State.reset : State where
  block := Block.reset
  base := 0
  pending := []
  reads := []

end Sys2Proof.Machine
end

