-- ==== Sys2Proof/Machine/Flags.lean ====
section
/-! DEFINITION. STATUS and CTRL as bus words, and the update of STATUS at the end of a command
(10_state.md R22 to R25). -/

namespace Sys2Proof.Machine

/-- The number of a result code (10_state.md R23). -/
def codeNum : Code → BitVec 4
  | .ok => 0#4
  | .malformed => 1#4
  | .invmode => 2#4
  | .kod => 3#4
  | .unsync => 4#4
  | .range => 5#4
  | .illegal => 6#4

/-- STATUS as the bus reads it: RPV in bit 16, W_NEGDLY 9, W_UNSYNC 8, ERR 3:0, the rest 0 (10_state.md R22). -/
def Status.word (t : Status) : Word :=
  0#15 ++ BitVec.ofBool t.rpv ++ 0#6 ++ BitVec.ofBool t.wNegdly ++ BitVec.ofBool t.wUnsync ++ 0#4
    ++ codeNum t.err

/-- CTRL as the bus reads it: ERA in 15:8, ERA_MODE 1, UNSYNC_FATAL 0, the rest 0 (10_state.md R25). -/
def Ctrl.word (c : Ctrl) : Word :=
  0#16 ++ c.era ++ 0#6 ++ BitVec.ofBool c.eraMode ++ BitVec.ofBool c.unsyncFatal

/-- The CTRL a bus write of `w` stores: bits 0, 1 and 15:8; the rest is discarded (10_state.md R25). -/
def ctrlOfWord (w : Word) : Ctrl where
  unsyncFatal := w.getLsbD 0
  eraMode := w.getLsbD 1
  era := w.extractLsb' 8 8

/-- The end of a command: ERR and both warnings are written, RPV is left as it is (10_state.md R24). -/
def State.endCommand (s : State) (code : Code) (wUnsync wNegdly : Bool) : State :=
  { s with block := { s.block with
      status := { s.block.status with err := code, wUnsync := wUnsync, wNegdly := wNegdly } } }

/-- `finish(OK)` (00_scope.md R8). -/
def State.finish (s : State) : State := s.endCommand .ok false false

/-- `raise Status(code)` (00_scope.md R8): the one way a command reports an error. It saves nothing and
goes nowhere, since the block has no trap entry (60_exceptions.md R257). -/
def State.raise (s : State) (code : Code) : State := s.endCommand code false false

/-- `STATUS.RPV <- b`, written by DEC alone (10_state.md R24). -/
def State.setRpv (s : State) (b : Bool) : State :=
  { s with block := { s.block with status := { s.block.status with rpv := b } } }

end Sys2Proof.Machine
end

