-- ==== Sys2Proof/WellFormed.lean ====
section
/-! DEFINITION. Which terms of `Instr` are commands of the block. Every field but SEL of RPGET has
only legal values by its type (30_encoding.md R102, R103); RPGET with SEL 13 to 15 is illegal
(30_encoding.md R106). -/

namespace Sys2Proof

/-- The check that a term is one of the block's commands: RPGET names a reply register 0 to 12. -/
def Instr.wellFormed : Instr → Bool
  | .nop => true
  | .enc _ _ _ => true
  | .dec => true
  | .setts _ _ => true
  | .getts _ _ => true
  | .rpget _ sel => decide (sel.toNat ≤ 12)
  | .ts2d _ => true
  | .u2d _ => true
  | .s2d _ => true
  | .h2d _ => true
  | .d2ts _ => true
  | .d2u _ => true
  | .d2s _ => true
  | .d2h _ => true
  | .tsub _ _ _ => true
  | .offset _ _ _ _ _ => true
  | .delay _ _ _ _ _ => true

end Sys2Proof
end

