-- ==== Sys2Proof/Decode.lean ====
section
/-! DEFINITION. The command decoder, total on all 2^32 words and rejecting by name, and after it the
encoder (30_encoding.md R100 to R107). -/

namespace Sys2Proof

/-! ## Register, slot and reply register numbers -/

/-- The number of a register in a command word (30_encoding.md R102). -/
def regNum : Reg → BitVec 3
  | .x0 => 0#3
  | .x1 => 1#3
  | .x2 => 2#3
  | .x3 => 3#3
  | .x4 => 4#3
  | .x5 => 5#3
  | .x6 => 6#3
  | .x7 => 7#3

/-- The register a 3-bit field names (30_encoding.md R102). -/
def regOf (n : BitVec 3) : Reg :=
  match n.toNat with
  | 0 => .x0
  | 1 => .x1
  | 2 => .x2
  | 3 => .x3
  | 4 => .x4
  | 5 => .x5
  | 6 => .x6
  | _ => .x7

/-- The number of a slot (30_encoding.md R103). -/
def slotNum : Slot → BitVec 2
  | .ref => 0#2
  | .org => 1#2
  | .rx => 2#2
  | .tx => 3#2

/-- The slot a 2-bit SLOT field names (30_encoding.md R103). -/
def slotOf (n : BitVec 2) : Slot :=
  match n.toNat with
  | 0 => .ref
  | 1 => .org
  | 2 => .rx
  | _ => .tx

/-- The number k of a reply register (10_state.md R32). -/
def replyNum : ReplyReg → Nat
  | .li => 0
  | .vn => 1
  | .mode => 2
  | .stratum => 3
  | .poll => 4
  | .prec => 5
  | .rootdelay => 6
  | .rootdisp => 7
  | .refid => 8
  | .refts => 9
  | .orgts => 10
  | .rxts => 11
  | .txts => 12

/-- The reply register of number k; there is none from 13 on (10_state.md R32). -/
def replyOf (k : Nat) : Option ReplyReg :=
  match k with
  | 0 => some .li
  | 1 => some .vn
  | 2 => some .mode
  | 3 => some .stratum
  | 4 => some .poll
  | 5 => some .prec
  | 6 => some .rootdelay
  | 7 => some .rootdisp
  | 8 => some .refid
  | 9 => some .refts
  | 10 => some .orgts
  | 11 => some .rxts
  | 12 => some .txts
  | _ => none

/-! ## Fields of format R (30_encoding.md R101) -/

/-- OP, bits 7:0. -/
def fieldOP (w : Word) : Byte := w.extractLsb' 0 8

/-- RD, bits 10:8. -/
def fieldRD (w : Word) : BitVec 3 := w.extractLsb' 8 3

/-- RS1, bits 13:11. -/
def fieldRS1 (w : Word) : BitVec 3 := w.extractLsb' 11 3

/-- RS2, bits 16:14. -/
def fieldRS2 (w : Word) : BitVec 3 := w.extractLsb' 14 3

/-- RS3, bits 19:17. -/
def fieldRS3 (w : Word) : BitVec 3 := w.extractLsb' 17 3

/-- RS4, bits 22:20. -/
def fieldRS4 (w : Word) : BitVec 3 := w.extractLsb' 20 3

/-- IMM, bits 31:23. -/
def fieldIMM (w : Word) : BitVec 9 := w.extractLsb' 23 9

/-- VN of ENC, IMM[2:0] (30_encoding.md R103). -/
def immVN (imm : BitVec 9) : BitVec 3 := imm.extractLsb' 0 3

/-- MODE of ENC, IMM[5:3] (30_encoding.md R103). -/
def immMODE (imm : BitVec 9) : BitVec 3 := imm.extractLsb' 3 3

/-- SLOT of SETTS and GETTS, IMM[1:0] (30_encoding.md R103). -/
def immSLOT (imm : BitVec 9) : BitVec 2 := imm.extractLsb' 0 2

/-- SEL of RPGET, IMM[3:0] (30_encoding.md R103). -/
def immSEL (imm : BitVec 9) : BitVec 4 := imm.extractLsb' 0 4

/-! ## The opcode map (30_encoding.md R104, R105) -/

/-- The OP column of 30_encoding.md R104. -/
def Opcode.code : Opcode → Byte
  | .nop => 0x00#8
  | .enc => 0x10#8
  | .dec => 0x11#8
  | .setts => 0x12#8
  | .getts => 0x13#8
  | .rpget => 0x14#8
  | .ts2d => 0x20#8
  | .u2d => 0x21#8
  | .s2d => 0x22#8
  | .h2d => 0x23#8
  | .d2ts => 0x24#8
  | .d2u => 0x25#8
  | .d2s => 0x26#8
  | .d2h => 0x27#8
  | .tsub => 0x30#8
  | .offset => 0x31#8
  | .delay => 0x32#8

/-- The opcode a byte stands for; every other byte is unassigned (30_encoding.md R106). -/
def Opcode.ofCode (b : Byte) : Option Opcode :=
  match b.toNat with
  | 0x00 => some .nop
  | 0x10 => some .enc
  | 0x11 => some .dec
  | 0x12 => some .setts
  | 0x13 => some .getts
  | 0x14 => some .rpget
  | 0x20 => some .ts2d
  | 0x21 => some .u2d
  | 0x22 => some .s2d
  | 0x23 => some .h2d
  | 0x24 => some .d2ts
  | 0x25 => some .d2u
  | 0x26 => some .d2s
  | 0x27 => some .d2h
  | 0x30 => some .tsub
  | 0x31 => some .offset
  | 0x32 => some .delay
  | _ => none

/-- The match column of 30_encoding.md R105: the opcode, every other bit 0. -/
def Opcode.matchWord (o : Opcode) : Word := o.code.setWidth 32

/-- The mask column of 30_encoding.md R105: OP and every unused field. -/
def Opcode.mask : Opcode → Word
  | .nop => 0xFFFFFFFF#32
  | .enc => 0xE07FC7FF#32
  | .dec => 0xFFFFFFFF#32
  | .setts => 0xFE7FC7FF#32
  | .getts => 0xFE7FF8FF#32
  | .rpget => 0xF87FF8FF#32
  | .ts2d => 0xFFFFC7FF#32
  | .u2d => 0xFFFFC7FF#32
  | .s2d => 0xFFFFC7FF#32
  | .h2d => 0xFFFFC7FF#32
  | .d2ts => 0xFFFFF8FF#32
  | .d2u => 0xFFFFF8FF#32
  | .d2s => 0xFFFFF8FF#32
  | .d2h => 0xFFFFF8FF#32
  | .tsub => 0xFFFE00FF#32
  | .offset => 0xFF8000FF#32
  | .delay => 0xFF8000FF#32

/-- Whether the word `w` matches the row of `o` (30_encoding.md R105). -/
def Opcode.selects (o : Opcode) (w : Word) : Bool := decide (w &&& o.mask = o.matchWord)

/-! ## Decoding (30_encoding.md R106, R107) -/

/-- Why a word is illegal (the three causes of 30_encoding.md R106). -/
inductive Reject where
  /-- The opcode is in no row. -/
  | unassignedOpcode
  /-- The opcode is listed and a field it does not use is not zero. -/
  | nonzeroUnusedField
  /-- RPGET with SEL 13, 14 or 15. -/
  | selectorOutOfRange
  deriving DecidableEq, Repr

/-- What the decoder answers: a command, or the reason the word is illegal. -/
inductive Decoded where
  | command (i : Instr)
  | illegal (r : Reject)
  deriving DecidableEq, Repr

/-- The command of a word that matches the row of `o`: its fields read out (30_encoding.md R107). -/
def decodeRow (o : Opcode) (w : Word) : Decoded :=
  match o with
  | .nop => .command .nop
  | .enc => .command (.enc (regOf (fieldRS1 w)) (immVN (fieldIMM w)) (immMODE (fieldIMM w)))
  | .dec => .command .dec
  | .setts => .command (.setts (regOf (fieldRS1 w)) (slotOf (immSLOT (fieldIMM w))))
  | .getts => .command (.getts (regOf (fieldRD w)) (slotOf (immSLOT (fieldIMM w))))
  | .rpget =>
    if 12 < (immSEL (fieldIMM w)).toNat then .illegal .selectorOutOfRange
    else .command (.rpget (regOf (fieldRD w)) (immSEL (fieldIMM w)))
  | .ts2d => .command (.ts2d (regOf (fieldRS1 w)))
  | .u2d => .command (.u2d (regOf (fieldRS1 w)))
  | .s2d => .command (.s2d (regOf (fieldRS1 w)))
  | .h2d => .command (.h2d (regOf (fieldRS1 w)))
  | .d2ts => .command (.d2ts (regOf (fieldRD w)))
  | .d2u => .command (.d2u (regOf (fieldRD w)))
  | .d2s => .command (.d2s (regOf (fieldRD w)))
  | .d2h => .command (.d2h (regOf (fieldRD w)))
  | .tsub => .command (.tsub (regOf (fieldRD w)) (regOf (fieldRS1 w)) (regOf (fieldRS2 w)))
  | .offset =>
    .command (.offset (regOf (fieldRD w)) (regOf (fieldRS1 w)) (regOf (fieldRS2 w))
      (regOf (fieldRS3 w)) (regOf (fieldRS4 w)))
  | .delay =>
    .command (.delay (regOf (fieldRD w)) (regOf (fieldRS1 w)) (regOf (fieldRS2 w))
      (regOf (fieldRS3 w)) (regOf (fieldRS4 w)))

/-- The decoder of 30_encoding.md R107. The mask of every row covers OP, so the only row that can match
is the one whose opcode stands in bits 7:0. -/
def decode (w : Word) : Decoded :=
  match Opcode.ofCode (fieldOP w) with
  | none => .illegal .unassignedOpcode
  | some o => if o.selects w then decodeRow o w else .illegal .nonzeroUnusedField

/-! ## Encoding (30_encoding.md R101) -/

/-- The word of format R with the given fields. -/
def packR (imm : BitVec 9) (rs4 rs3 rs2 rs1 rd : BitVec 3) (op : Byte) : Word :=
  imm ++ rs4 ++ rs3 ++ rs2 ++ rs1 ++ rd ++ op

/-- The IMM field of ENC (30_encoding.md R103). -/
def immOfEnc (vn mode : BitVec 3) : BitVec 9 := 0#3 ++ mode ++ vn

/-- The IMM field of SETTS and GETTS (30_encoding.md R103). -/
def immOfSlot (k : Slot) : BitVec 9 := 0#7 ++ slotNum k

/-- The IMM field of RPGET (30_encoding.md R103). -/
def immOfSel (sel : BitVec 4) : BitVec 9 := 0#5 ++ sel

/-- The opcode of a command. -/
def Instr.opcode : Instr → Opcode
  | .nop => .nop
  | .enc _ _ _ => .enc
  | .dec => .dec
  | .setts _ _ => .setts
  | .getts _ _ => .getts
  | .rpget _ _ => .rpget
  | .ts2d _ => .ts2d
  | .u2d _ => .u2d
  | .s2d _ => .s2d
  | .h2d _ => .h2d
  | .d2ts _ => .d2ts
  | .d2u _ => .d2u
  | .d2s _ => .d2s
  | .d2h _ => .d2h
  | .tsub _ _ _ => .tsub
  | .offset _ _ _ _ _ => .offset
  | .delay _ _ _ _ _ => .delay

/-- The word of a command, every unused field 0 (30_encoding.md R101, R105, R116). -/
def encode : Instr → Word
  | .nop => packR 0 0 0 0 0 0 Opcode.nop.code
  | .enc s vn mode => packR (immOfEnc vn mode) 0 0 0 (regNum s) 0 Opcode.enc.code
  | .dec => packR 0 0 0 0 0 0 Opcode.dec.code
  | .setts s k => packR (immOfSlot k) 0 0 0 (regNum s) 0 Opcode.setts.code
  | .getts d k => packR (immOfSlot k) 0 0 0 0 (regNum d) Opcode.getts.code
  | .rpget d sel => packR (immOfSel sel) 0 0 0 0 (regNum d) Opcode.rpget.code
  | .ts2d s => packR 0 0 0 0 (regNum s) 0 Opcode.ts2d.code
  | .u2d s => packR 0 0 0 0 (regNum s) 0 Opcode.u2d.code
  | .s2d s => packR 0 0 0 0 (regNum s) 0 Opcode.s2d.code
  | .h2d s => packR 0 0 0 0 (regNum s) 0 Opcode.h2d.code
  | .d2ts d => packR 0 0 0 0 0 (regNum d) Opcode.d2ts.code
  | .d2u d => packR 0 0 0 0 0 (regNum d) Opcode.d2u.code
  | .d2s d => packR 0 0 0 0 0 (regNum d) Opcode.d2s.code
  | .d2h d => packR 0 0 0 0 0 (regNum d) Opcode.d2h.code
  | .tsub d a b => packR 0 0 0 (regNum b) (regNum a) (regNum d) Opcode.tsub.code
  | .offset d t1 t2 t3 t4 =>
    packR 0 (regNum t4) (regNum t3) (regNum t2) (regNum t1) (regNum d) Opcode.offset.code
  | .delay d t1 t2 t3 t4 =>
    packR 0 (regNum t4) (regNum t3) (regNum t2) (regNum t1) (regNum d) Opcode.delay.code

/-! ## The table's numbering -/

/-- The instruction the decoder reads from the table's word `w` of `nbits` bits. A command word is one
32-bit bus word with bit 0 its least significant bit (20_memory.md R65), so the table's numbering
is the decoder's own; bits from `nbits` on are 0, and a word wider than 32 bits is no command. -/
def decodeTableWord (nbits w : Nat) : Option Instr :=
  if 2 ^ 32 ≤ w % 2 ^ nbits then none
  else
    match decode (BitVec.ofNat 32 (w % 2 ^ nbits)) with
    | .command i => some i
    | .illegal _ => none

end Sys2Proof
end

