-- ==== Sys2Proof/Machine/Operands.lean ====
section
/-! DEFINITION. The operands of commands: general and reply registers, the duration register's
reading, and the packet offsets of the timestamp slots (00_scope.md R8, 10_state.md R20, R30 to R32). -/

namespace Sys2Proof.Machine

/-! ## General registers (00_scope.md R8, 10_state.md R20) -/

/-- `x[i]`: X0 reads 0. -/
def GRegs.read (g : GRegs) : Reg → DWord
  | .x0 => 0#64
  | .x1 => g.x1
  | .x2 => g.x2
  | .x3 => g.x3
  | .x4 => g.x4
  | .x5 => g.x5
  | .x6 => g.x6
  | .x7 => g.x7

/-- `x[i] <- v`: a write to X0 is discarded. -/
def GRegs.write (g : GRegs) (r : Reg) (v : DWord) : GRegs :=
  match r with
  | .x0 => g
  | .x1 => { g with x1 := v }
  | .x2 => { g with x2 := v }
  | .x3 => { g with x3 := v }
  | .x4 => { g with x4 := v }
  | .x5 => { g with x5 := v }
  | .x6 => { g with x6 := v }
  | .x7 => { g with x7 := v }

/-- `x[i]` in a state. -/
def State.readX (s : State) (r : Reg) : DWord := s.block.x.read r

/-- `x[i] <- v` in a state. -/
def State.writeX (s : State) (r : Reg) (v : DWord) : State :=
  { s with block := { s.block with x := s.block.x.write r v } }

/-! ## Halves of a 64-bit value (00_scope.md R6, 20_memory.md R64) -/

/-- Bits 63:32: the seconds of a timestamp. -/
def hiHalf (v : DWord) : Word := v.extractLsb' 32 32

/-- Bits 31:0: the fraction of a timestamp. -/
def loHalf (v : DWord) : Word := v.extractLsb' 0 32

/-- The 64-bit value of two halves. -/
def joinHalves (hi lo : Word) : DWord := hi ++ lo

/-! ## Reply registers (10_state.md R32) -/

/-- `RP[k]`, by the register's name. -/
def ReplyRegs.read (p : ReplyRegs) : ReplyReg → DWord
  | .li => p.li
  | .vn => p.vn
  | .mode => p.mode
  | .stratum => p.stratum
  | .poll => p.poll
  | .prec => p.prec
  | .rootdelay => p.rootdelay
  | .rootdisp => p.rootdisp
  | .refid => p.refid
  | .refts => p.refts
  | .orgts => p.orgts
  | .rxts => p.rxts
  | .txts => p.txts

/-! ## The duration register (10_state.md R31, 42_convert.md section 3) -/

/-- D is valid when it has fewer than 10^9 nanoseconds (10_state.md R31). -/
def Duration.valid (d : Duration) : Bool := decide (d.nanos.toNat < Config.nanosPerSecond)

/-- `D is negative`: NEG is 1 and the magnitude is not 0 (42_convert.md section 3). -/
def Duration.negative (d : Duration) : Bool := d.neg && (d.secs != 0 || d.nanos != 0)

/-- The value of a valid D in nanoseconds, that is val(D) times 10^9; an invalid D denotes nothing
(10_state.md R31; DEDUCED scale, log 11). -/
def Duration.value (d : Duration) : Option Int :=
  if d.valid then
    some ((if d.neg then -1 else 1) * (d.secs.toNat * Config.nanosPerSecond + d.nanos.toNat : Nat))
  else none

/-! ## Packet offsets (30_encoding.md R103, 20_memory.md R66) -/

/-- The packet byte where a slot's timestamp begins: 16 + 8 SLOT. -/
def slotOffset (k : Slot) : Nat := 16 + 8 * (slotNum k).toNat

end Sys2Proof.Machine
end

