-- ==== Sys2Proof/Machine/Ops.lean ====
section
/-! DEFINITION. The named operations over the packet buffer and D (00_scope.md R8, 42_convert.md R183). -/

namespace Sys2Proof.Machine

/-- What a step answers. -/
abbrev Result := Host.Outcome State Fault Refusal

/-! ## Byte storage -/

/-- What an unlisted byte reads as: the packet buffer resets to 0 (10_state.md R33, log 7). -/
def Memory.blank : Byte := 0#8

/-- The byte at an address. -/
def Memory.read : Memory → Nat → Byte
  | [], _ => Memory.blank
  | (b, w) :: m, a => if a = b then w else Memory.read m a

/-- Store a byte, keeping the canonical form: writing what an unlisted byte reads as removes the entry. -/
def Memory.write : Memory → Nat → Byte → Memory
  | [], a, v => if v = Memory.blank then [] else [(a, v)]
  | (b, w) :: m, a, v =>
    if a < b then
      if v = Memory.blank then (b, w) :: m else (a, v) :: (b, w) :: m
    else if a = b then
      if v = Memory.blank then m else (a, v) :: m
    else (b, w) :: Memory.write m a v

/-- The listed addresses rise strictly from `lo` on, lie in the 48 bytes, and no entry is blank. -/
def Memory.risesFrom (lo : Nat) : Memory → Bool
  | [] => true
  | (a, v) :: m =>
    decide (lo ≤ a) && decide (a < Config.packetBytes) && decide (v ≠ Memory.blank)
      && Memory.risesFrom (a + 1) m

/-- The canonical form of the packet buffer. -/
def Memory.wf (m : Memory) : Bool := Memory.risesFrom 0 m

/-- `MemRead(a, 4)`: four bytes, the one at `a` most significant (00_scope.md R8, 20_memory.md R65). -/
def Memory.read32 (m : Memory) (a : Nat) : Word :=
  Memory.read m a ++ Memory.read m (a + 1) ++ Memory.read m (a + 2) ++ Memory.read m (a + 3)

/-- `MemRead(a, 8)` (00_scope.md R8). -/
def Memory.read64 (m : Memory) (a : Nat) : DWord :=
  Memory.read32 m a ++ Memory.read32 m (a + 4)

/-- `MemWrite(a, 4, v)`: big-endian (00_scope.md R8, 20_memory.md R62). -/
def Memory.write32 (m : Memory) (a : Nat) (v : Word) : Memory :=
  Memory.write
    (Memory.write
      (Memory.write
        (Memory.write m a (v.extractLsb' 24 8))
        (a + 1) (v.extractLsb' 16 8))
      (a + 2) (v.extractLsb' 8 8))
    (a + 3) (v.extractLsb' 0 8)

/-- `MemWrite(a, 8, v)` (00_scope.md R8). -/
def Memory.write64 (m : Memory) (a : Nat) (v : DWord) : Memory :=
  Memory.write32 (Memory.write32 m a (hiHalf v)) (a + 4) (loHalf v)

/-- The packet buffer with every byte 0. -/
def Memory.zero : Memory := []

/-! ## The packet buffer of a state -/

/-- PKT[a] (10_state.md R33). -/
def State.pktByte (s : State) (a : Nat) : Byte := Memory.read s.block.pkt a

/-- Replace the packet buffer. -/
def State.setPkt (s : State) (m : Memory) : State := { s with block := { s.block with pkt := m } }

/-! ## The duration register and the reply registers -/

/-- Replace D. -/
def State.setD (s : State) (d : Duration) : State := { s with block := { s.block with d := d } }

/-- Replace the reply registers. -/
def State.setRp (s : State) (p : ReplyRegs) : State := { s with block := { s.block with rp := p } }

/-- The D that `setD(neg, secs, nanos)` writes: no negative zero (42_convert.md R183). -/
def mkDuration (neg : Bool) (secs nanos : Nat) : Duration where
  neg := neg && decide (secs ≠ 0 ∨ nanos ≠ 0)
  nanos := BitVec.ofNat 32 nanos
  secs := BitVec.ofNat 64 secs

/-! ## Ends of commands -/

/-- A command that writes one general register and ends with OK. -/
def State.finishX (s : State) (rd : Reg) (v : DWord) : Result := .next (s.writeX rd v).finish

/-- A command that writes D and ends with OK. -/
def State.finishD (s : State) (d : Duration) : Result := .next (s.setD d).finish

/-- A conversion from D: the value into the register, or RANGE with nothing else written (42_convert.md section 3). -/
def State.finishConversion (s : State) (rd : Reg) : Option DWord → Result
  | some v => s.finishX rd v
  | none => .next (s.raise .range)

end Sys2Proof.Machine
end

