-- ==== Sys2Proof/Machine/Arith.lean ====
section
/-! DEFINITION. The offset/delay unit: TSUB, OFFSET, DELAY (43_arith.md R220 to R223). -/

namespace Sys2Proof.Machine

/-- `sdiff(a, b) = s64(u64(a − b))`, an exact integer (43_arith.md R220). -/
def sdiff (a b : DWord) : Int := (a - b).toInt

/-- The exact value whose floor is the offset: `p + q` (43_arith.md R222). -/
def offsetSum (t1 t2 t3 t4 : DWord) : Int := sdiff t2 t1 + sdiff t3 t4

/-- The exact delay `d` before the clamp (43_arith.md R223). -/
def exactDelay (t1 t2 t3 t4 : DWord) : Int := sdiff t4 t1 - sdiff t3 t2

/-- The end of DELAY: the delay, or 0 with W_NEGDLY when it is negative (43_arith.md R223). -/
def State.finishDelay (s : State) (rd : Reg) (d : Int) : Result :=
  if d < 0 then .next ((s.writeX rd 0#64).endCommand .ok false true)
  else s.finishX rd (BitVec.ofInt 64 d)

/-- TSUB (43_arith.md R221). -/
def execTsub (rd rs1 rs2 : Reg) (s : State) : Result :=
  s.finishX rd (s.readX rs1 - s.readX rs2)

/-- OFFSET: the exact sum halved, rounded toward minus infinity (43_arith.md R222). -/
def execOffset (rd rs1 rs2 rs3 rs4 : Reg) (s : State) : Result :=
  s.finishX rd
    (BitVec.ofInt 64
      (offsetSum (s.readX rs1) (s.readX rs2) (s.readX rs3) (s.readX rs4) / 2))

/-- DELAY (43_arith.md R223). -/
def execDelay (rd rs1 rs2 rs3 rs4 : Reg) (s : State) : Result :=
  s.finishDelay rd (exactDelay (s.readX rs1) (s.readX rs2) (s.readX rs3) (s.readX rs4))

end Sys2Proof.Machine
end

