-- ==== Sys2Proof/Machine/Control.lean ====
section
/-! DEFINITION. NOP and the illegal command (40_control.md R131, R132). -/

namespace Sys2Proof.Machine

/-- NOP: `finish(OK)` (40_control.md R132). -/
def execNop (s : State) : Result := .next s.finish

/-- A word that is no command: `raise Status(ILLEGAL)` and no other write (40_control.md R131). -/
def execIllegal (s : State) : Result := .next (s.raise .illegal)

end Sys2Proof.Machine
end

