-- ==== Sys2Proof/Machine/Convert.lean ====
section
/-! DEFINITION. The timestamp encoder/decoder: TS2D, U2D, S2D, H2D, D2TS, D2U, D2S, D2H
(42_convert.md R180 to R191). All arithmetic is exact, on natural numbers and integers (00_scope.md R7). -/

namespace Sys2Proof.Machine

/-! ## Fraction conversions (42_convert.md R180) -/

/-- 2^32: the units of a 32.32 value in a second. -/
def two32 : Nat := 4294967296

/-- 2^16: the units of a 16.16 value in a second. -/
def two16 : Nat := 65536

/-- `floor(f × 10^9 / 2^32)`. -/
def frac32ToNs (f : Nat) : Nat := f * Config.nanosPerSecond / two32

/-- `ceil(n × 2^32 / 10^9)`. -/
def nsToFrac32 (n : Nat) : Nat := (n * two32 + (Config.nanosPerSecond - 1)) / Config.nanosPerSecond

/-- `floor(h × 10^9 / 2^16)`. -/
def frac16ToNs (h : Nat) : Nat := h * Config.nanosPerSecond / two16

/-- `ceil(n × 2^16 / 10^9)`. -/
def nsToFrac16 (n : Nat) : Nat := (n * two16 + (Config.nanosPerSecond - 1)) / Config.nanosPerSecond

/-! ## Eras (42_convert.md R181, R182) -/

/-- The era of a timestamp with seconds field `sec`: fixed, or by bit 31 in pivot mode (42_convert.md R181). -/
def Ctrl.eraOf (c : Ctrl) (sec : Word) : Nat :=
  if c.eraMode then
    if sec.getLsbD 31 then c.era.toNat else c.era.toNat + 1
  else c.era.toNat

/-- Whether a seconds count since the epoch of era 0 is in the era window of CTRL (42_convert.md R182). -/
def Ctrl.inWindow (c : Ctrl) (secs : Nat) : Bool :=
  let e := secs / two32
  let bit31 := (BitVec.ofNat 32 (secs % two32)).getLsbD 31
  if c.eraMode then
    (decide (e = c.era.toNat) && bit31) || (decide (e = c.era.toNat + 1) && !bit31)
  else decide (e = c.era.toNat)

/-! ## Fixed point to duration -/

/-- The duration TS2D writes (42_convert.md R184). -/
def durationOfTimestamp (c : Ctrl) (t : DWord) : Duration :=
  mkDuration false (c.eraOf (hiHalf t) * two32 + (hiHalf t).toNat) (frac32ToNs (loHalf t).toNat)

/-- The duration U2D writes (42_convert.md R185). -/
def durationOfUnsigned (v : DWord) : Duration :=
  mkDuration false (hiHalf v).toNat (frac32ToNs (loHalf v).toNat)

/-- The duration S2D writes: the magnitude is converted (42_convert.md R186). -/
def durationOfSigned (v : DWord) : Duration :=
  let w := v.toInt
  mkDuration (decide (w < 0)) (w.natAbs / two32) (frac32ToNs (w.natAbs % two32))

/-- The duration H2D writes: bits 31:0 as signed 16.16 (42_convert.md R187). -/
def durationOfShort (v : DWord) : Duration :=
  let w := (loHalf v).toInt
  mkDuration (decide (w < 0)) (w.natAbs / two16) (frac16ToNs (w.natAbs % two16))

/-- TS2D (42_convert.md R184). -/
def execTs2d (rs1 : Reg) (s : State) : Result :=
  s.finishD (durationOfTimestamp s.block.ctrl (s.readX rs1))

/-- U2D (42_convert.md R185). -/
def execU2d (rs1 : Reg) (s : State) : Result := s.finishD (durationOfUnsigned (s.readX rs1))

/-- S2D (42_convert.md R186). -/
def execS2d (rs1 : Reg) (s : State) : Result := s.finishD (durationOfSigned (s.readX rs1))

/-- H2D (42_convert.md R187). -/
def execH2d (rs1 : Reg) (s : State) : Result := s.finishD (durationOfShort (s.readX rs1))

/-! ## Duration to fixed point: the value, or none for RANGE -/

/-- The timestamp of D2TS (42_convert.md R188). -/
def timestampOf (c : Ctrl) (d : Duration) : Option DWord :=
  if !d.valid then none
  else if d.negative then none
  else if !c.inWindow d.secs.toNat then none
  else some (BitVec.ofNat 64 (d.secs.toNat % two32 * two32 + nsToFrac32 d.nanos.toNat))

/-- The unsigned 32.32 value of D2U (42_convert.md R189). -/
def unsignedOf (d : Duration) : Option DWord :=
  if !d.valid then none
  else if d.negative then none
  else if two32 ≤ d.secs.toNat then none
  else some (BitVec.ofNat 64 (d.secs.toNat * two32 + nsToFrac32 d.nanos.toNat))

/-- `NEG = 1 ? −m : m` as a pattern of `w` bits, or none outside [−half, half − 1] (42_convert.md R190, R191). -/
def signedPattern (w : Nat) (half : Nat) (neg : Bool) (m : Nat) : Option (BitVec w) :=
  if !neg && decide (half - 1 < m) then none
  else if neg && decide (half < m) then none
  else some (BitVec.ofInt w (if neg then -(m : Int) else (m : Int)))

/-- The signed 32.32 value of D2S (42_convert.md R190). -/
def signedOf (d : Duration) : Option DWord :=
  if !d.valid then none
  else signedPattern 64 (2 ^ 63) d.neg (d.secs.toNat * two32 + nsToFrac32 d.nanos.toNat)

/-- The signed 16.16 value of D2H, zero-extended (42_convert.md R191). -/
def shortOf (d : Duration) : Option DWord :=
  if !d.valid then none
  else
    (signedPattern 32 (2 ^ 31) d.neg (d.secs.toNat * two16 + nsToFrac16 d.nanos.toNat)).map
      (fun p => p.setWidth 64)

/-- D2TS (42_convert.md R188). -/
def execD2ts (rd : Reg) (s : State) : Result :=
  s.finishConversion rd (timestampOf s.block.ctrl s.block.d)

/-- D2U (42_convert.md R189). -/
def execD2u (rd : Reg) (s : State) : Result := s.finishConversion rd (unsignedOf s.block.d)

/-- D2S (42_convert.md R190). -/
def execD2s (rd : Reg) (s : State) : Result := s.finishConversion rd (signedOf s.block.d)

/-- D2H (42_convert.md R191). -/
def execD2h (rd : Reg) (s : State) : Result := s.finishConversion rd (shortOf s.block.d)

end Sys2Proof.Machine
end

