-- ==== Sys2Proof/Machine/Packet.lean ====
section
/-! DEFINITION. The packet marshaller: ENC, DEC, SETTS, GETTS, RPGET (41_packet.md R140 to R147). -/

namespace Sys2Proof.Machine

/-! ## Header byte (20_memory.md R67) -/

/-- `LI ++ VN ++ Mode`. -/
def headerByte (li : BitVec 2) (vn mode : BitVec 3) : Byte := li ++ vn ++ mode

/-- LI, bits 7:6 of byte 0. -/
def headerLI (b : Byte) : BitVec 2 := b.extractLsb' 6 2

/-- VN, bits 5:3 of byte 0. -/
def headerVN (b : Byte) : BitVec 3 := b.extractLsb' 3 3

/-- Mode, bits 2:0 of byte 0. -/
def headerMode (b : Byte) : BitVec 3 := b.extractLsb' 0 3

/-! ## ENC -/

/-- The request packet of ENC: zero but for the header byte, with LI 0, and the transmit timestamp (41_packet.md R140). -/
def requestPacket (vn mode : BitVec 3) (t : DWord) : Memory :=
  Memory.write64 (Memory.write Memory.zero 0 (headerByte 0#2 vn mode)) Config.txOffset t

/-- ENC (41_packet.md R140). -/
def execEnc (rs1 : Reg) (vn mode : BitVec 3) (s : State) : Result :=
  .next (s.setPkt (requestPacket vn mode (s.readX rs1))).finish

/-! ## DEC -/

/-- `Latch()`: every field of the packet, as the reply registers hold it (41_packet.md R142). -/
def latchedReply (m : Memory) : ReplyRegs where
  li := (headerLI (Memory.read m 0)).setWidth 64
  vn := (headerVN (Memory.read m 0)).setWidth 64
  mode := (headerMode (Memory.read m 0)).setWidth 64
  stratum := (Memory.read m 1).setWidth 64
  poll := (Memory.read m 2).setWidth 64
  prec := (Memory.read m 3).signExtend 64
  rootdelay := (Memory.read32 m 4).setWidth 64
  rootdisp := (Memory.read32 m 8).setWidth 64
  refid := (Memory.read32 m 12).setWidth 64
  refts := Memory.read64 m 16
  orgts := Memory.read64 m 24
  rxts := Memory.read64 m 32
  txts := Memory.read64 m 40

/-- `Latch()` and `STATUS.RPV <- 1` (41_packet.md R141, R142). -/
def State.latch (s : State) : State := (s.setRp (latchedReply s.block.pkt)).setRpv true

/-- Whether DEC accepts the packet's mode: 4 (server) or 2 (symmetric-passive) (41_packet.md R141). -/
def modeAccepted (mode : BitVec 3) : Bool := mode == 4#3 || mode == 2#3

/-- The checks of DEC after the latch: stratum, then leap indicator (41_packet.md R141). -/
def State.checkReply (s : State) : State :=
  if s.pktByte 1 = 0#8 then s.raise .kod
  else if headerLI (s.pktByte 0) = 3#2 then
    if s.block.ctrl.unsyncFatal then s.raise .unsync
    else s.endCommand .ok true false
  else s.finish

/-- DEC: length, then mode, then the latch and its checks (41_packet.md R141). -/
def execDec (s : State) : Result :=
  if s.block.rxLen.toNat ≠ Config.packetBytes then .next ((s.setRpv false).raise .malformed)
  else if modeAccepted (headerMode (s.pktByte 0)) then .next s.latch.checkReply
  else .next ((s.setRpv false).raise .invmode)

/-! ## SETTS, GETTS, RPGET -/

/-- SETTS (41_packet.md R145). -/
def execSetts (rs1 : Reg) (k : Slot) (s : State) : Result :=
  .next (s.setPkt (Memory.write64 s.block.pkt (slotOffset k) (s.readX rs1))).finish

/-- GETTS (41_packet.md R146). -/
def execGetts (rd : Reg) (k : Slot) (s : State) : Result :=
  s.finishX rd (Memory.read64 s.block.pkt (slotOffset k))

/-- RPGET (41_packet.md R147). SEL 13 to 15 is no command: its word is illegal, so the term ends as an
illegal command does (DEDUCED, log 8; 30_encoding.md R106). -/
def execRpget (rd : Reg) (sel : BitVec 4) (s : State) : Result :=
  match replyOf sel.toNat with
  | some k => s.finishX rd (s.block.rp.read k)
  | none => .next (s.raise .illegal)

end Sys2Proof.Machine
end

