-- ==== Sys2Proof/Machine/Dispatch.lean ====
section
/-! DEFINITION. One arm per command: the meaning of each (30_encoding.md R104). -/

namespace Sys2Proof.Machine

def exec (i : Instr) (s : State) : Host.Outcome State Fault Refusal :=
  match i with
  | .nop => Sys2Proof.Machine.execNop s
  | .enc rs1 vn mode => Sys2Proof.Machine.execEnc rs1 vn mode s
  | .dec => Sys2Proof.Machine.execDec s
  | .setts rs1 k => Sys2Proof.Machine.execSetts rs1 k s
  | .getts rd k => Sys2Proof.Machine.execGetts rd k s
  | .rpget rd sel => Sys2Proof.Machine.execRpget rd sel s
  | .ts2d rs1 => Sys2Proof.Machine.execTs2d rs1 s
  | .u2d rs1 => Sys2Proof.Machine.execU2d rs1 s
  | .s2d rs1 => Sys2Proof.Machine.execS2d rs1 s
  | .h2d rs1 => Sys2Proof.Machine.execH2d rs1 s
  | .d2ts rd => Sys2Proof.Machine.execD2ts rd s
  | .d2u rd => Sys2Proof.Machine.execD2u rd s
  | .d2s rd => Sys2Proof.Machine.execD2s rd s
  | .d2h rd => Sys2Proof.Machine.execD2h rd s
  | .tsub rd rs1 rs2 => Sys2Proof.Machine.execTsub rd rs1 rs2 s
  | .offset rd rs1 rs2 rs3 rs4 => Sys2Proof.Machine.execOffset rd rs1 rs2 rs3 rs4 s
  | .delay rd rs1 rs2 rs3 rs4 => Sys2Proof.Machine.execDelay rd rs1 rs2 rs3 rs4 s

end Sys2Proof.Machine
end

