-- ==== Sys2Proof/Machine/Bus.lean ====
section
/-! DEFINITION. The host bus: the address map, reads and writes of its words, the command a CMD write
runs, and what each host event does (20_memory.md R60 to R64, 40_control.md R130). -/

namespace Sys2Proof.Machine

/-! ## The address map (20_memory.md R60) -/

/-- The mapped words of the window. -/
inductive BusWord where
  | id | ctrl | status | cmd | rxLen | txOff | dNeg | dNanos | dSecsHi | dSecsLo
  | xHi (r : Reg)
  | xLo (r : Reg)
  | rpHi (k : ReplyReg)
  | rpLo (k : ReplyReg)
  | pkt (j : Fin 12)
  deriving DecidableEq, Repr

/-- The offset of a mapped word: the first column of 20_memory.md R60. -/
def BusWord.offset : BusWord → Nat
  | .id => 0x000
  | .ctrl => 0x004
  | .status => 0x008
  | .cmd => 0x00C
  | .rxLen => 0x010
  | .txOff => 0x014
  | .dNeg => 0x018
  | .dNanos => 0x01C
  | .dSecsHi => 0x020
  | .dSecsLo => 0x024
  | .xHi r => 0x040 + 8 * (regNum r).toNat
  | .xLo r => 0x044 + 8 * (regNum r).toNat
  | .rpHi k => 0x080 + 8 * replyNum k
  | .rpLo k => 0x084 + 8 * replyNum k
  | .pkt j => 0x100 + 4 * j.val

/-- The word of the single-word registers at word index `n` (offset 4n, below 0x040). -/
def fixedWordAt (n : Nat) : Option BusWord :=
  match n with
  | 0 => some .id
  | 1 => some .ctrl
  | 2 => some .status
  | 3 => some .cmd
  | 4 => some .rxLen
  | 5 => some .txOff
  | 6 => some .dNeg
  | 7 => some .dNanos
  | 8 => some .dSecsHi
  | 9 => some .dSecsLo
  | _ => none

/-- The word at an offset that is a multiple of 4, or none where the map has no row (20_memory.md R60). -/
def busWordAt (off : Nat) : Option BusWord :=
  let n := off / 4
  if n < 16 then fixedWordAt n
  else if n < 32 then
    let r := regOf (BitVec.ofNat 3 ((n - 16) / 2))
    some (if n % 2 = 0 then .xHi r else .xLo r)
  else if n < 64 then
    (replyOf ((n - 32) / 2)).map fun k => if n % 2 = 0 then .rpHi k else .rpLo k
  else if h : n - 64 < 12 then some (.pkt ⟨n - 64, h⟩)
  else none

/-- Where a host access lands. -/
inductive Located where
  | word (w : BusWord)
  | fault (f : Fault)
  | refused (r : Refusal)
  deriving DecidableEq, Repr

/-- Where an access of `bits` bits at host address `addr` lands, with the window at `base`
(20_memory.md R61). Outside the window it is not an access to this block (log 4); inside, the order in which
the three bus errors are told apart only names the fault (DESIGN CHOICE, log 5). -/
def locate (base bits addr : Nat) : Located :=
  if addr < base ∨ base + Config.windowBytes ≤ addr then .refused .outsideWindow
  else if bits ≠ Config.busBits then .fault .wrongWidth
  else if (addr - base) % 4 ≠ 0 then .fault .misaligned
  else
    match busWordAt (addr - base) with
    | some w => .word w
    | none => .fault .unmapped

/-! ## Reading and writing words (20_memory.md R62 to R64) -/

/-- The packet byte where PKTj begins (20_memory.md R62). -/
def pktWordOffset (j : Fin 12) : Nat := 4 * j.val

/-- What a bus read of a mapped word returns; CMD reads 0 (20_memory.md R63). -/
def Block.readWord (b : Block) : BusWord → Word
  | .id => Config.idWord
  | .ctrl => b.ctrl.word
  | .status => b.status.word
  | .cmd => 0#32
  | .rxLen => b.rxLen
  | .txOff => BitVec.ofNat 32 Config.txOffset
  | .dNeg => (BitVec.ofBool b.d.neg).setWidth 32
  | .dNanos => b.d.nanos
  | .dSecsHi => hiHalf b.d.secs
  | .dSecsLo => loHalf b.d.secs
  | .xHi r => hiHalf (b.x.read r)
  | .xLo r => loHalf (b.x.read r)
  | .rpHi k => hiHalf (b.rp.read k)
  | .rpLo k => loHalf (b.rp.read k)
  | .pkt j => Memory.read32 b.pkt (pktWordOffset j)

/-- What a bus write of `v` to a mapped word stores: each write changes only its own 32 bits
(20_memory.md R64), and read-only words ignore it (20_memory.md R63). CMD holds no state (10_state.md R29); the
command its write runs is `runCommand`. -/
def Block.writeWord (b : Block) (w : BusWord) (v : Word) : Block :=
  match w with
  | .id => b
  | .ctrl => { b with ctrl := ctrlOfWord v }
  | .status => b
  | .cmd => b
  | .rxLen => { b with rxLen := v }
  | .txOff => b
  | .dNeg => { b with d := { b.d with neg := v.getLsbD 0 } }
  | .dNanos => { b with d := { b.d with nanos := v } }
  | .dSecsHi => { b with d := { b.d with secs := joinHalves v (loHalf b.d.secs) } }
  | .dSecsLo => { b with d := { b.d with secs := joinHalves (hiHalf b.d.secs) v } }
  | .xHi r => { b with x := b.x.write r (joinHalves v (loHalf (b.x.read r))) }
  | .xLo r => { b with x := b.x.write r (joinHalves (hiHalf (b.x.read r)) v) }
  | .rpHi _ => b
  | .rpLo _ => b
  | .pkt j => { b with pkt := Memory.write32 b.pkt (pktWordOffset j) v }

/-! ## Commands and events -/

/-- The command step of a CMD write of `w` (40_control.md R130). -/
def runCommand (w : Word) (s : State) : Result :=
  match decode w with
  | .command i => exec i s
  | .illegal _ => execIllegal s

/-- A bus write: CMD runs a command, every other word is stored (20_memory.md R71). -/
def hostWrite (w : BusWord) (v : Word) (s : State) : Result :=
  if w = .cmd then runCommand v s
  else .next { s with block := s.block.writeWord w v }

/-- A bus read: it returns the word and changes no state of the block (20_memory.md R63). -/
def hostRead (w : BusWord) (s : State) : Result :=
  .next { s with reads := s.block.readWord w :: s.reads }

/-- The reset signal: the block's state only; the window's place and the host are not the block's
(70_reset_and_hazards.md R280, log 6). -/
def platformReset (s : State) : Result := .next { s with block := Block.reset }

/-- What one host event does. -/
def hostEvent (e : HostEvent) (s : State) : Result :=
  match e with
  | .reset => platformReset s
  | .read bits addr =>
    match locate s.base bits addr with
    | .word w => hostRead w s
    | .fault f => .fault f
    | .refused r => .refused r
  | .write bits addr v =>
    match locate s.base bits addr with
    | .word w => hostWrite w v s
    | .fault f => .fault f
    | .refused r => .refused r

/-! ## Host notation (30_encoding.md R118) -/

/-- The legal write of `v` to a mapped word. -/
def writeEvent (base : Nat) (w : BusWord) (v : Word) : HostEvent :=
  .write Config.busBits (base + w.offset) v

/-- The write of a command word to CMD. -/
def commandEvent (base : Nat) (v : Word) : HostEvent := writeEvent base .cmd v

/-- The lines of a host program (30_encoding.md R118). `pkt` takes the 48 bytes as twelve words packed by
20_memory.md R62. -/
inductive HostLine where
  | wr (off : Nat) (v : Word)
  | rd (off : Nat)
  | wr64 (r : Reg) (v : DWord)
  | cmd (i : Instr)
  | pkt (words : List Word)
  deriving DecidableEq, Repr

/-- The twelve (or fewer) writes of a `pkt` line, from PKTj on. -/
def pktEvents (base j : Nat) : List Word → List HostEvent
  | [] => []
  | w :: ws => .write Config.busBits (base + (0x100 + 4 * j)) w :: pktEvents base (j + 1) ws

/-- The bus accesses of one line (30_encoding.md R118). -/
def HostLine.events (base : Nat) : HostLine → List HostEvent
  | .wr off v => [.write Config.busBits (base + off) v]
  | .rd off => [.read Config.busBits (base + off)]
  | .wr64 r v => [writeEvent base (.xHi r) (hiHalf v), writeEvent base (.xLo r) (loHalf v)]
  | .cmd i => [commandEvent base (encode i)]
  | .pkt ws => pktEvents base 0 ws

/-- Queue a host program behind what the host still has to do. -/
def State.queue (s : State) (lines : List HostLine) : State :=
  { s with pending := s.pending ++ lines.flatMap (HostLine.events s.base) }

end Sys2Proof.Machine
end

