-- ==== Sys2Proof/Machine/Step.lean ====
section
/-! DEFINITION. One step of the machine: the oldest pending host event takes effect, whole, before the
next (20_memory.md R72, 40_control.md R130). -/

namespace Sys2Proof.Machine

/-- With nothing pending the block holds its state (60_exceptions.md R264); else the oldest event is done. -/
def step (s : State) : Host.Outcome State Fault Refusal :=
  match s.pending with
  | [] => .next s
  | e :: rest => hostEvent e { s with pending := rest }

/-- `s` with the next host access the write of the table's word `w` to CMD, which is how a command comes
to run (10_state.md R21, R29, log 1). Bits from `nbits` on are 0. -/
def State.withFetchWord (s : State) (nbits w : Nat) : State :=
  { s with pending := commandEvent s.base (BitVec.ofNat 32 (w % 2 ^ nbits)) :: s.pending }

end Sys2Proof.Machine
end

