-- ==== Sys2Proof/Machine/Assembler.lean ====
section
/-! DEFINITION. The assembler's text form: register names, one form per command, and the
pseudo-instructions (30_encoding.md R115 to R117). Text is a list of characters, so that it evaluates.
What the rules leave open of the text (spaces, digit groups) is log 12. -/

namespace Sys2Proof.Machine

/-- Text, character by character. -/
abbrev Text := List Char

/-! ## Reading text -/

/-- An ASCII capital as its small letter: names are case-insensitive (30_encoding.md R115). -/
def lowerChar (c : Char) : Char :=
  if 65 ≤ c.toNat ∧ c.toNat ≤ 90 then Char.ofNat (c.toNat + 32) else c

/-- Drop leading spaces. -/
def dropSpaces : Text → Text
  | ' ' :: t => dropSpaces t
  | t => t

/-- Drop leading and trailing spaces. -/
def trimSpaces (t : Text) : Text := (dropSpaces (dropSpaces t).reverse).reverse

/-- The pieces of text between commas; text without a comma is one piece. -/
def splitCommas : Text → Text → List Text
  | acc, [] => [trimSpaces acc.reverse]
  | acc, ',' :: t => trimSpaces acc.reverse :: splitCommas [] t
  | acc, c :: t => splitCommas (c :: acc) t

/-- The mnemonic and the rest of a line. -/
def splitMnemonic : Text → Text → Text × Text
  | acc, [] => (acc.reverse, [])
  | acc, ' ' :: t => (acc.reverse, t)
  | acc, c :: t => splitMnemonic (c :: acc) t

/-- The operands of a line's rest; none where it is blank. -/
def splitOperands (t : Text) : List Text :=
  match dropSpaces t with
  | [] => []
  | u => splitCommas [] u

/-- The value of a digit, 0 to 15. -/
def digitValue (c : Char) : Option Nat :=
  if 48 ≤ c.toNat ∧ c.toNat ≤ 57 then some (c.toNat - 48)
  else if 97 ≤ c.toNat ∧ c.toNat ≤ 102 then some (c.toNat - 87)
  else none

/-- The number of a run of digits of a radix, `_` between digit groups allowed (00_scope.md R7). -/
def digitsValue (radix : Nat) : Nat → Text → Option Nat
  | acc, [] => some acc
  | acc, '_' :: t => digitsValue radix acc t
  | acc, c :: t =>
    match digitValue c with
    | some v => if v < radix then digitsValue radix (acc * radix + v) t else none
    | none => none

/-- A number: decimal, or hexadecimal after 0x (30_encoding.md R115). -/
def numberOf : Text → Option Nat
  | [] => none
  | '_' :: _ => none
  | ['0', 'x'] => none
  | '0' :: 'x' :: '_' :: _ => none
  | '0' :: 'x' :: t => digitsValue 16 0 t
  | t => digitsValue 10 0 t

/-- The place of a name in a list of names. -/
def indexOfName (t : Text) : List Text → Option Nat
  | [] => none
  | n :: ns => if t = n then some 0 else (indexOfName t ns).map (· + 1)

/-! ## Operands (30_encoding.md R115, R116) -/

/-- A register name, x0 to x7. -/
def asmReg : Text → Option Reg
  | ['x', c] => match digitValue c with
    | some v => if v < 8 then some (regOf (BitVec.ofNat 3 v)) else none
    | none => none
  | _ => none

/-- A number below a bound; beyond it is an assembly error. -/
def asmBelow (bound : Nat) (t : Text) : Option Nat :=
  match numberOf t with
  | some v => if v < bound then some v else none
  | none => none

/-- The names of the slots, in the order of their numbers. -/
def slotNames : List Text := [['r', 'e', 'f'], ['o', 'r', 'g'], ['r', 'x'], ['t', 'x']]

/-- A slot, by name or number. -/
def asmSlot (t : Text) : Option Slot :=
  match indexOfName t slotNames with
  | some n => some (slotOf (BitVec.ofNat 2 n))
  | none => (asmBelow 4 t).map fun n => slotOf (BitVec.ofNat 2 n)

/-- The names of the reply registers, in the order of their numbers. -/
def replyNames : List Text :=
  [['l', 'i'], ['v', 'n'], ['m', 'o', 'd', 'e'], ['s', 't', 'r', 'a', 't', 'u', 'm'],
    ['p', 'o', 'l', 'l'], ['p', 'r', 'e', 'c']]
  ++ [['r', 'o', 'o', 't', 'd', 'e', 'l', 'a', 'y'], ['r', 'o', 'o', 't', 'd', 'i', 's', 'p'],
    ['r', 'e', 'f', 'i', 'd'], ['r', 'e', 'f', 't', 's'], ['o', 'r', 'g', 't', 's'],
    ['r', 'x', 't', 's'], ['t', 'x', 't', 's']]

/-- A reply register selector, by name or number 0 to 12. -/
def asmSel (t : Text) : Option (BitVec 4) :=
  match indexOfName t replyNames with
  | some n => some (BitVec.ofNat 4 n)
  | none => (asmBelow 13 t).map (BitVec.ofNat 4)

/-! ## Forms of a line (30_encoding.md R116, R117) -/

/-- A line with no operand. -/
def asmBare (i : Instr) : List Text → Option Instr
  | [] => some i
  | _ => none

/-- A line with one register. -/
def asmOne (f : Reg → Instr) : List Text → Option Instr
  | [a] => (asmReg a).map f
  | _ => none

/-- A line with a register and a slot. -/
def asmSlotted (f : Reg → Slot → Instr) : List Text → Option Instr
  | [a, k] => do some (f (← asmReg a) (← asmSlot k))
  | _ => none

/-- A line with a register and a reply register. -/
def asmSelected (f : Reg → BitVec 4 → Instr) : List Text → Option Instr
  | [a, k] => do some (f (← asmReg a) (← asmSel k))
  | _ => none

/-- A line with three registers. -/
def asmThree (f : Reg → Reg → Reg → Instr) : List Text → Option Instr
  | [a, b, c] => do some (f (← asmReg a) (← asmReg b) (← asmReg c))
  | _ => none

/-- A line with five registers. -/
def asmFive (f : Reg → Reg → Reg → Reg → Reg → Instr) : List Text → Option Instr
  | [a, b, c, d, e] => do
    some (f (← asmReg a) (← asmReg b) (← asmReg c) (← asmReg d) (← asmReg e))
  | _ => none

/-- ENC, with version and mode, or as the pseudo-instruction that takes 4 and 3. -/
def asmEnc : List Text → Option Instr
  | [a] => (asmReg a).map fun r => .enc r 4#3 3#3
  | [a, v, m] => do
    some (.enc (← asmReg a) (BitVec.ofNat 3 (← asmBelow 8 v)) (BitVec.ofNat 3 (← asmBelow 8 m)))
  | _ => none

/-- NEGTS xd, xs is TSUB xd, x0, xs. -/
def asmNegts : List Text → Option Instr
  | [a, b] => do some (.tsub (← asmReg a) .x0 (← asmReg b))
  | _ => none

/-- The commands' mnemonics and forms (30_encoding.md R116). -/
def commandForms : List (Text × (List Text → Option Instr)) :=
  [(['n', 'o', 'p'], asmBare .nop), (['e', 'n', 'c'], asmEnc), (['d', 'e', 'c'], asmBare .dec),
    (['s', 'e', 't', 't', 's'], asmSlotted .setts), (['g', 'e', 't', 't', 's'], asmSlotted .getts),
    (['r', 'p', 'g', 'e', 't'], asmSelected .rpget)]
  ++ [(['t', 's', '2', 'd'], asmOne .ts2d), (['u', '2', 'd'], asmOne .u2d),
    (['s', '2', 'd'], asmOne .s2d), (['h', '2', 'd'], asmOne .h2d),
    (['d', '2', 't', 's'], asmOne .d2ts), (['d', '2', 'u'], asmOne .d2u),
    (['d', '2', 's'], asmOne .d2s), (['d', '2', 'h'], asmOne .d2h)]
  ++ [(['t', 's', 'u', 'b'], asmThree .tsub),
    (['o', 'f', 'f', 's', 'e', 't'], asmFive .offset), (['d', 'e', 'l', 'a', 'y'], asmFive .delay)]

/-- The pseudo-instructions' mnemonics and expansions (30_encoding.md R117). -/
def pseudoForms : List (Text × (List Text → Option Instr)) :=
  [(['e', 'n', 'c', 'r', 'e', 'q'], asmBare (.enc .x0 4#3 3#3)),
    (['g', 'e', 't', 't', '2'], asmOne fun d => .rpget d 11#4),
    (['g', 'e', 't', 't', '3'], asmOne fun d => .rpget d 12#4),
    (['c', 'l', 'r', 's', 't'], asmBare .nop),
    (['n', 'e', 'g', 't', 's'], asmNegts)]

/-- The form of a mnemonic. -/
def formOf (m : Text) : List (Text × (List Text → Option Instr)) → Option (List Text → Option Instr)
  | [] => none
  | (n, f) :: rest => if m = n then some f else formOf m rest

/-- The command of a line, or none for an assembly error. -/
def assemble (line : Text) : Option Instr :=
  let parts := splitMnemonic [] (dropSpaces (line.map lowerChar))
  match formOf parts.1 (commandForms ++ pseudoForms) with
  | some f => f (splitOperands parts.2)
  | none => none

end Sys2Proof.Machine
end

