-- ==== Sys2Proof/Safety.lean ====
section
/-! DEFINITION. What counts as a safe run, the invariant of the machine, and the words in which claims
say what changed and what did not. -/

namespace Sys2Proof.Machine

/-! ## Safe runs (20_memory.md R61, 60_exceptions.md R256) -/

/-- A legal host event: the reset signal, or a 32-bit access at the address of a mapped word. -/
def HostEvent.Legal (base : Nat) : HostEvent → Prop
  | .reset => True
  | .read bits addr => bits = 32 ∧ ∃ w : BusWord, addr = base + w.offset
  | .write bits addr _ => bits = 32 ∧ ∃ w : BusWord, addr = base + w.offset

/-- The host event is an access at an address of the window. -/
def HostEvent.InWindow (base : Nat) : HostEvent → Prop
  | .reset => False
  | .read _ addr => base ≤ addr ∧ addr < base + 4096
  | .write _ addr _ => base ≤ addr ∧ addr < base + 4096

/-- Everything the host still has to do is legal. -/
def State.Orderly (s : State) : Prop := ∀ e ∈ s.pending, e.Legal s.base

/-- `k` steps, stopping at the first fault or refusal. -/
def runFor : Nat → State → Result
  | 0, s => .next s
  | k + 1, s =>
    match step s with
    | .next t => runFor k t
    | .fault f => .fault f
    | .refused r => .refused r

/-! ## The invariant -/

/-- The reply registers hold values of their fields' widths, extended as 10_state.md R32 says. -/
abbrev ReplyRegs.InWidth (p : ReplyRegs) : Prop :=
  p.li.toNat < 4 ∧ p.vn.toNat < 8 ∧ p.mode.toNat < 8 ∧ p.stratum.toNat < 256 ∧ p.poll.toNat < 256
    ∧ (-128 ≤ p.prec.toInt ∧ p.prec.toInt < 128) ∧ p.rootdelay.toNat < 2 ^ 32
    ∧ p.rootdisp.toNat < 2 ^ 32 ∧ p.refid.toNat < 2 ^ 32

/-- STATUS and the reply registers agree: what each code and warning of DEC says of the latched reply
(60_exceptions.md R250, 10_state.md R22). -/
abbrev Block.StatusAgrees (b : Block) : Prop :=
  (b.status.rpv = true → b.rp.mode.toNat = 2 ∨ b.rp.mode.toNat = 4)
    ∧ (b.status.err = .malformed ∨ b.status.err = .invmode → b.status.rpv = false)
    ∧ (b.status.err = .kod → b.status.rpv = true ∧ b.rp.stratum.toNat = 0)
    ∧ (b.status.err = .unsync → b.status.rpv = true ∧ b.rp.stratum.toNat ≠ 0 ∧ b.rp.li.toNat = 3)
    ∧ (b.status.wUnsync = true → b.status.err = .ok ∧ b.status.rpv = true
        ∧ b.rp.stratum.toNat ≠ 0 ∧ b.rp.li.toNat = 3)
    ∧ (b.status.wNegdly = true → b.status.err = .ok ∧ b.status.wUnsync = false)

/-- The invariant: the window is aligned, the packet buffer canonical, the reply registers in width and
STATUS in agreement with them. -/
abbrev State.Inv (s : State) : Prop :=
  s.base % 4096 = 0 ∧ s.block.pkt.wf = true ∧ s.block.rp.InWidth ∧ s.block.StatusAgrees

/-! ## What changed and what did not -/

/-- The window's place, the host's remaining events and its record of reads are as before. -/
def HostSideSame (s t : State) : Prop :=
  t.base = s.base ∧ t.pending = s.pending ∧ t.reads = s.reads

/-- CTRL and RX_LEN are as before. -/
def ControlSame (s t : State) : Prop :=
  t.block.ctrl = s.block.ctrl ∧ t.block.rxLen = s.block.rxLen

/-- Every general register reads as before. -/
def RegsSame (s t : State) : Prop := ∀ r, t.readX r = s.readX r

/-- Every general register but `rd` reads as before. -/
def RegsSameBut (rd : Reg) (s t : State) : Prop := ∀ r, r ≠ rd → t.readX r = s.readX r

/-- `rd` has taken the value `v`, unless it is X0, which reads 0; every other register reads as before. -/
def XWritten (rd : Reg) (v : DWord) (s t : State) : Prop :=
  (rd ≠ .x0 → t.readX rd = v) ∧ (rd = .x0 → t.readX rd = 0#64) ∧ RegsSameBut rd s t

/-- Every byte of the packet buffer reads as before. -/
def PktSame (s t : State) : Prop := ∀ a, t.pktByte a = s.pktByte a

/-- Every byte outside the `n` bytes at `lo` reads as before. -/
def PktSameOutside (lo n : Nat) (s t : State) : Prop :=
  ∀ a, a < lo ∨ lo + n ≤ a → t.pktByte a = s.pktByte a

/-- The command ended with this code and these warnings, and left RPV as it was (10_state.md R24). -/
def Ends (code : Code) (wUnsync wNegdly : Bool) (s t : State) : Prop :=
  t.block.status.err = code ∧ t.block.status.wUnsync = wUnsync
    ∧ t.block.status.wNegdly = wNegdly ∧ t.block.status.rpv = s.block.status.rpv

/-- Everything but the general registers and STATUS is as before. -/
def SameButRegs (s t : State) : Prop :=
  HostSideSame s t ∧ ControlSame s t ∧ t.block.d = s.block.d ∧ t.block.rp = s.block.rp ∧ PktSame s t

/-- Everything but D and STATUS is as before. -/
def SameButD (s t : State) : Prop :=
  HostSideSame s t ∧ ControlSame s t ∧ RegsSame s t ∧ t.block.rp = s.block.rp ∧ PktSame s t

/-- Everything but the packet buffer and STATUS is as before. -/
def SameButPkt (s t : State) : Prop :=
  HostSideSame s t ∧ ControlSame s t ∧ RegsSame s t ∧ t.block.d = s.block.d
    ∧ t.block.rp = s.block.rp

/-- Everything but STATUS is as before. -/
def SameButStatus (s t : State) : Prop :=
  SameButRegs s t ∧ RegsSame s t

/-- The destination register of a command that has one (30_encoding.md R104, column uses). -/
def destOf : Instr → Option Reg
  | .nop => none
  | .enc _ _ _ => none
  | .dec => none
  | .setts _ _ => none
  | .getts rd _ => some rd
  | .rpget rd _ => some rd
  | .ts2d _ => none
  | .u2d _ => none
  | .s2d _ => none
  | .h2d _ => none
  | .d2ts rd => some rd
  | .d2u rd => some rd
  | .d2s rd => some rd
  | .d2h rd => some rd
  | .tsub rd _ _ => some rd
  | .offset rd _ _ _ _ => some rd
  | .delay rd _ _ _ _ => some rd

/-- The command with another destination register, where it has one. -/
def withDest (q : Reg) : Instr → Instr
  | .nop => .nop
  | .enc s v m => .enc s v m
  | .dec => .dec
  | .setts s k => .setts s k
  | .getts _ k => .getts q k
  | .rpget _ sel => .rpget q sel
  | .ts2d s => .ts2d s
  | .u2d s => .u2d s
  | .s2d s => .s2d s
  | .h2d s => .h2d s
  | .d2ts _ => .d2ts q
  | .d2u _ => .d2u q
  | .d2s _ => .d2s q
  | .d2h _ => .d2h q
  | .tsub _ a b => .tsub q a b
  | .offset _ t1 t2 t3 t4 => .offset q t1 t2 t3 t4
  | .delay _ t1 t2 t3 t4 => .delay q t1 t2 t3 t4

/-- The command of the word `n`, and of no other word. -/
def EncodedAs (i : Instr) (n : Nat) : Prop := ∀ w : Word, decode w = .command i ↔ w.toNat = n

/-! ## Text of operands (30_encoding.md R115) -/

/-- A general register as the assembler writes it. -/
def regText : Reg → Text
  | .x0 => ['x', '0']
  | .x1 => ['x', '1']
  | .x2 => ['x', '2']
  | .x3 => ['x', '3']
  | .x4 => ['x', '4']
  | .x5 => ['x', '5']
  | .x6 => ['x', '6']
  | .x7 => ['x', '7']

/-! ## Spec arithmetic, by its defining inequalities (00_scope.md R7) -/

/-- `q = floor(num / den)`. -/
def IsFloor (q num den : Nat) : Prop := q * den ≤ num ∧ num < (q + 1) * den

/-- `q = ceil(num / den)`. -/
def IsCeil (q num den : Nat) : Prop := num ≤ q * den ∧ q * den < num + den

/-- The `n` packet bytes from `a` on, assembled big-endian: `MemRead(a, n)` for any n (00_scope.md R8). -/
def State.bigEndian (s : State) (a : Nat) : Nat → Nat
  | 0 => 0
  | n + 1 => s.bigEndian a n * 256 + (s.pktByte (a + n)).toNat

/-- S is in the era window of CTRL (42_convert.md R182). -/
def InEraWindow (c : Ctrl) (S : Nat) : Prop :=
  (c.eraMode = false → S / 2 ^ 32 = c.era.toNat)
    ∧ (c.eraMode = true →
        (S / 2 ^ 32 = c.era.toNat ∧ 2 ^ 31 ≤ S % 2 ^ 32)
          ∨ (S / 2 ^ 32 = c.era.toNat + 1 ∧ S % 2 ^ 32 < 2 ^ 31))

/-- D is negative: NEG is 1 and its magnitude is not 0 (42_convert.md section 3). -/
def NegativeD (d : Duration) : Prop := d.neg = true ∧ (d.secs.toNat ≠ 0 ∨ d.nanos.toNat ≠ 0)

/-- `d` with the sign of a zero magnitude cleared. -/
def plainZero (d : Duration) : Duration := { d with neg := d.negative }

/-- A state that differs from `s` in CTRL alone. -/
def State.setCtrl (s : State) (c : Ctrl) : State := { s with block := { s.block with ctrl := c } }

/-- A state that differs from `s` in STATUS alone. -/
def State.setStatus (s : State) (st : Status) : State := { s with block := { s.block with status := st } }

/-- A state that differs from `s` in RX_LEN alone. -/
def State.setRxLen (s : State) (n : Word) : State := { s with block := { s.block with rxLen := n } }

end Sys2Proof.Machine
end

