-- ==== Sys2Proof/Certificates/Slice0/Obligations.lean ====
section
/-! DEFINITION. What is claimed of the model, from the numbered rules of spec/, file by file. Every
statement is about every state (and so about every base address, log 3) unless it says otherwise. -/

open Sys2Proof Sys2Proof.Machine

/-! ## Encoding (30_encoding.md) -/

/-- R101: a word is its fields at their places, and format R puts each field where it is read. -/
def Obligations.FormatRFields : Prop :=
  (∀ w : Word, w.toNat
      = (fieldIMM w).toNat * 2 ^ 23 + (fieldRS4 w).toNat * 2 ^ 20 + (fieldRS3 w).toNat * 2 ^ 17
        + (fieldRS2 w).toNat * 2 ^ 14 + (fieldRS1 w).toNat * 2 ^ 11 + (fieldRD w).toNat * 2 ^ 8
        + (fieldOP w).toNat)
    ∧ ∀ (imm : BitVec 9) (rs4 rs3 rs2 rs1 rd : BitVec 3) (op : Byte),
        fieldIMM (packR imm rs4 rs3 rs2 rs1 rd op) = imm
          ∧ fieldRS4 (packR imm rs4 rs3 rs2 rs1 rd op) = rs4
          ∧ fieldRS3 (packR imm rs4 rs3 rs2 rs1 rd op) = rs3
          ∧ fieldRS2 (packR imm rs4 rs3 rs2 rs1 rd op) = rs2
          ∧ fieldRS1 (packR imm rs4 rs3 rs2 rs1 rd op) = rs1
          ∧ fieldRD (packR imm rs4 rs3 rs2 rs1 rd op) = rd
          ∧ fieldOP (packR imm rs4 rs3 rs2 rs1 rd op) = op

/-- R101 to R107: decoding the word of a well-formed command gives it back, every operand at every value. -/
def Obligations.DecodeOfEncode : Prop :=
  ∀ i : Instr, i.wellFormed = true → decode (encode i) = .command i

/-- R106, R107: a word that decodes to a command is that command's word, and the command is well-formed. -/
def Obligations.EncodeOfDecode : Prop :=
  ∀ (w : Word) (i : Instr), decode w = .command i → i.wellFormed = true ∧ encode i = w

/-- R105: the rows of the table by match and mask, at most one of which matches any word, and a word
decodes to a command of the row that matches it (RPGET only with SEL at most 12). -/
def Obligations.MatchAndMaskSelect : Prop :=
  ([Opcode.nop, .enc, .dec, .setts, .getts, .rpget, .ts2d, .u2d].map
      (fun o => (o.matchWord.toNat, o.mask.toNat))
    = [(0x00000000, 0xFFFFFFFF), (0x00000010, 0xE07FC7FF), (0x00000011, 0xFFFFFFFF),
       (0x00000012, 0xFE7FC7FF), (0x00000013, 0xFE7FF8FF), (0x00000014, 0xF87FF8FF),
       (0x00000020, 0xFFFFC7FF), (0x00000021, 0xFFFFC7FF)])
  ∧ ([Opcode.s2d, .h2d, .d2ts, .d2u, .d2s, .d2h, .tsub, .offset, .delay].map
      (fun o => (o.matchWord.toNat, o.mask.toNat))
    = [(0x00000022, 0xFFFFC7FF), (0x00000023, 0xFFFFC7FF), (0x00000024, 0xFFFFF8FF),
       (0x00000025, 0xFFFFF8FF), (0x00000026, 0xFFFFF8FF), (0x00000027, 0xFFFFF8FF),
       (0x00000030, 0xFFFE00FF), (0x00000031, 0xFF8000FF), (0x00000032, 0xFF8000FF)])
  ∧ (∀ (o p : Opcode) (w : Word),
      w &&& o.mask = o.matchWord → w &&& p.mask = p.matchWord → o = p)
  ∧ ∀ (o : Opcode) (w : Word),
      (∃ i, decode w = .command i ∧ i.opcode = o)
        ↔ (w &&& o.mask = o.matchWord ∧ (o = .rpget → w.toNat / 2 ^ 23 % 16 ≤ 12))

/-- R106: exactly which words are illegal, and why. -/
def Obligations.IllegalWordsExactly : Prop :=
  (∀ w : Word,
    (∃ r, decode w = .illegal r)
      ↔ ((∀ o : Opcode, w &&& o.mask ≠ o.matchWord)
          ∨ (w &&& Opcode.rpget.mask = Opcode.rpget.matchWord ∧ 12 < w.toNat / 2 ^ 23 % 16)))
  ∧ ∀ w : Word,
    decode w = .illegal .unassignedOpcode
      ↔ ((0x01 ≤ w.toNat % 256 ∧ w.toNat % 256 ≤ 0x0F) ∨ (0x15 ≤ w.toNat % 256 ∧ w.toNat % 256 ≤ 0x1F)
          ∨ (0x28 ≤ w.toNat % 256 ∧ w.toNat % 256 ≤ 0x2F) ∨ 0x33 ≤ w.toNat % 256)

/-- The command words that the spec's own examples and vectors write out (41_packet.md to 43_arith.md,
95_test_vectors.md) decode to the commands they stand for. -/
def Obligations.SpecExampleWordsDecode : Prop :=
  decode 0x00000000#32 = .command .nop
    ∧ decode 0x0E000810#32 = .command (.enc .x1 4#3 3#3)
    ∧ decode 0x00000011#32 = .command .dec
    ∧ decode 0x01801012#32 = .command (.setts .x2 .tx)
    ∧ decode 0x01800313#32 = .command (.getts .x3 .tx)
    ∧ decode 0x05800214#32 = .command (.rpget .x2 11#4)
    ∧ decode 0x00000820#32 = .command (.ts2d .x1)
    ∧ decode 0x00003021#32 = .command (.u2d .x6)
    ∧ decode 0x00002822#32 = .command (.s2d .x5)
    ∧ decode 0x00002023#32 = .command (.h2d .x4)
    ∧ decode 0x00000124#32 = .command (.d2ts .x1)
    ∧ decode 0x00000425#32 = .command (.d2u .x4)
    ∧ decode 0x00000526#32 = .command (.d2s .x5)
    ∧ decode 0x00000427#32 = .command (.d2h .x4)
    ∧ decode 0x00008B30#32 = .command (.tsub .x3 .x1 .x2)
    ∧ decode 0x00468D31#32 = .command (.offset .x5 .x1 .x2 .x3 .x4)
    ∧ decode 0x00468E32#32 = .command (.delay .x6 .x1 .x2 .x3 .x4)
    ∧ decode 0x06800314#32 = .illegal .selectorOutOfRange
    ∧ decode 0x00028B30#32 = .illegal .nonzeroUnusedField
    ∧ decode 0x00000040#32 = .illegal .unassignedOpcode

/-- R117 with R115: each pseudo-instruction assembles to its expansion, with the mnemonic in capitals as R117
writes it and with it in small letters, for all registers as R115 writes them. -/
def Obligations.PseudoInstructionsExpand : Prop :=
  ∀ d r : Reg,
    assemble (['E', 'N', 'C', ' '] ++ regText r) = some (.enc r 4#3 3#3)
      ∧ assemble (['e', 'n', 'c', ' '] ++ regText r) = some (.enc r 4#3 3#3)
      ∧ assemble ['E', 'N', 'C', 'R', 'E', 'Q'] = some (.enc .x0 4#3 3#3)
      ∧ assemble ['e', 'n', 'c', 'r', 'e', 'q'] = some (.enc .x0 4#3 3#3)
      ∧ assemble (['G', 'E', 'T', 'T', '2', ' '] ++ regText d) = some (.rpget d 11#4)
      ∧ assemble (['g', 'e', 't', 't', '2', ' '] ++ regText d) = some (.rpget d 11#4)
      ∧ assemble (['G', 'E', 'T', 'T', '3', ' '] ++ regText d) = some (.rpget d 12#4)
      ∧ assemble (['g', 'e', 't', 't', '3', ' '] ++ regText d) = some (.rpget d 12#4)
      ∧ assemble ['C', 'L', 'R', 'S', 'T'] = some .nop
      ∧ assemble ['c', 'l', 'r', 's', 't'] = some .nop
      ∧ assemble (['N', 'E', 'G', 'T', 'S', ' '] ++ regText d ++ [',', ' '] ++ regText r)
          = some (.tsub d .x0 r)
      ∧ assemble (['n', 'e', 'g', 't', 's', ' '] ++ regText d ++ [',', ' '] ++ regText r)
          = some (.tsub d .x0 r)
      ∧ replyNum .rxts = 11 ∧ replyNum .txts = 12

/-! ## The step, reset and the bus (10_state.md, 20_memory.md, 40_control.md, 70_reset_and_hazards.md) -/

/-- R130: a write of a command's word to CMD makes the step exec of that command, after the write has
left the host's queue. -/
def Obligations.StepRunsTheCommandWritten : Prop :=
  ∀ (s : State) (w : Word) (i : Instr) (rest : List HostEvent),
    s.pending = .write 32 (s.base + 0x00C) w :: rest → decode w = .command i →
      step s = exec i { s with pending := rest }

/-- R131: an illegal word ends with ILLEGAL, clears both warnings, keeps RPV and writes nothing else. -/
def Obligations.IllegalWordReportsIllegal : Prop :=
  ∀ (s : State) (w : Word) (r : Reject) (rest : List HostEvent),
    s.pending = .write 32 (s.base + 0x00C) w :: rest → decode w = .illegal r →
      ∃ t, step s = .next t ∧ Ends .illegal false false s t
        ∧ SameButStatus { s with pending := rest } t

/-- R281, R264: a step with nothing pending changes nothing, and the block changes in a step only by the
reset signal or by a legal host write; the initial state is the reset state. -/
def Obligations.OnlyResetOrWriteChangesBlock : Prop :=
  (∀ s : State, s.pending = [] → step s = .next s)
  ∧ (∀ (s t : State), step s = .next t → t.block ≠ s.block →
    ∃ rest, s.pending = .reset :: rest
      ∨ ∃ (w : BusWord) (v : Word), s.pending = .write 32 (s.base + w.offset) v :: rest)
  ∧ State.reset.block = Block.reset

/-- R280: the reset signal sets every piece of state to the value its rule gives, from any state. -/
def Obligations.ResetSetsEveryValue : Prop :=
  ∀ (s : State) (rest : List HostEvent), s.pending = .reset :: rest →
    ∃ t, step s = .next t
      ∧ (∀ r, t.readX r = 0#64)
      ∧ t.block.status.word = 0x00000000#32 ∧ t.block.status.rpv = false
      ∧ t.block.ctrl.word = 0x00000001#32 ∧ t.block.ctrl.unsyncFatal = true
      ∧ t.block.ctrl.eraMode = false ∧ t.block.ctrl.era = 0#8
      ∧ (∀ sec, t.block.ctrl.eraOf sec = 0)
      ∧ t.block.rxLen = 0#32
      ∧ t.block.d = { neg := false, nanos := 0, secs := 0 }
      ∧ (∀ k, t.block.rp.read k = 0#64)
      ∧ (∀ a, t.pktByte a = 0#8)
      ∧ t.block.readWord .id = 0x534E5450#32 ∧ t.block.readWord .txOff = 0x00000028#32

/-- R72: one access at a time, in the order of issue: a step takes the oldest event and leaves the others,
whatever command ran. The queue of events and the window's base are the model's form (logs 1 and 3); that
the reset signal too leaves the waiting events and the base as they were is the model's choice (log 6). -/
def Obligations.OneEventAtATime : Prop :=
  ∀ (s t : State) (e : HostEvent) (rest : List HostEvent),
    s.pending = e :: rest → step s = .next t → t.pending = rest ∧ t.base = s.base

/-- R60: the offsets that are mapped are exactly those of the map's words, and no two words share one. -/
def Obligations.AddressMapIsExact : Prop :=
  (∀ (off : Nat) (w : BusWord), (off % 4 = 0 ∧ busWordAt off = some w) ↔ off = w.offset)
  ∧ (∀ off, off % 4 = 0 →
      (busWordAt off = none
        ↔ ((0x028 ≤ off ∧ off ≤ 0x03C) ∨ (0x0E8 ≤ off ∧ off ≤ 0x0FC) ∨ 0x130 ≤ off)))
  ∧ (BusWord.id.offset = 0x000 ∧ BusWord.ctrl.offset = 0x004 ∧ BusWord.status.offset = 0x008
      ∧ BusWord.cmd.offset = 0x00C ∧ BusWord.rxLen.offset = 0x010 ∧ BusWord.txOff.offset = 0x014
      ∧ BusWord.dNeg.offset = 0x018 ∧ BusWord.dNanos.offset = 0x01C
      ∧ BusWord.dSecsHi.offset = 0x020 ∧ BusWord.dSecsLo.offset = 0x024)
  ∧ (∀ r, (BusWord.xHi r).offset = 0x040 + 8 * (regNum r).toNat
      ∧ (BusWord.xLo r).offset = 0x044 + 8 * (regNum r).toNat)
  ∧ (∀ k, (BusWord.rpHi k).offset = 0x080 + 8 * replyNum k
      ∧ (BusWord.rpLo k).offset = 0x084 + 8 * replyNum k)
  ∧ ∀ j : Fin 12, (BusWord.pkt j).offset = 0x100 + 4 * j.val

/-- R61, R256: inside the window an access faults exactly when it is not a 32-bit access at a mapped
multiple of 4. -/
def Obligations.BusErrorExactlyWhenIllegal : Prop :=
  ∀ (s : State) (e : HostEvent) (rest : List HostEvent),
    s.pending = e :: rest → e.InWindow s.base →
      ((∃ f, step s = .fault f) ↔ ¬ e.Legal s.base)

/-- R63: a legal read returns the current value of the word and changes no state; and which value each word
holds (R25 to R30, R32, R64): ID, CMD and TXOFF their constants, CTRL its three fields, RX_LEN and the words
of D theirs, and each word of Xi and RPk its half. STATUS is `Obligations.StatusWordLayout` and the packet
words are `Obligations.PacketWordPacking`. -/
def Obligations.BusReadReturnsTheWord : Prop :=
  (∀ (s : State) (w : BusWord) (rest : List HostEvent),
    s.pending = .read 32 (s.base + w.offset) :: rest →
      ∃ t, step s = .next t ∧ t.block = s.block ∧ t.base = s.base ∧ t.pending = rest
        ∧ t.reads = s.block.readWord w :: s.reads)
  ∧ ∀ b : Block, b.readWord .id = 0x534E5450#32 ∧ b.readWord .cmd = 0#32
      ∧ b.readWord .txOff = 40#32
      ∧ (b.readWord .ctrl).toNat
          = b.ctrl.era.toNat * 2 ^ 8 + b.ctrl.eraMode.toNat * 2 + b.ctrl.unsyncFatal.toNat
      ∧ b.readWord .rxLen = b.rxLen
      ∧ (b.readWord .dNeg).toNat = b.d.neg.toNat
      ∧ b.readWord .dNanos = b.d.nanos
      ∧ (b.readWord .dSecsHi).toNat = b.d.secs.toNat / 2 ^ 32
      ∧ (b.readWord .dSecsLo).toNat = b.d.secs.toNat % 2 ^ 32
      ∧ (∀ r, (b.readWord (.xHi r)).toNat = (b.x.read r).toNat / 2 ^ 32
          ∧ (b.readWord (.xLo r)).toNat = (b.x.read r).toNat % 2 ^ 32)
      ∧ ∀ k, (b.readWord (.rpHi k)).toNat = (b.rp.read k).toNat / 2 ^ 32
          ∧ (b.readWord (.rpLo k)).toNat = (b.rp.read k).toNat % 2 ^ 32

/-- R22, R23: what a read of STATUS gives, in every state: the code in bits 3:0 is 0 to 6, the flags stand in
bits 8, 9 and 16, and the reserved bits are 0. -/
def Obligations.StatusWordLayout : Prop :=
  (codeNum .ok = 0#4 ∧ codeNum .malformed = 1#4 ∧ codeNum .invmode = 2#4 ∧ codeNum .kod = 3#4
    ∧ codeNum .unsync = 4#4 ∧ codeNum .range = 5#4 ∧ codeNum .illegal = 6#4)
  ∧ ∀ b : Block,
    (b.readWord .status).toNat
        = (codeNum b.status.err).toNat + b.status.wUnsync.toNat * 2 ^ 8
          + b.status.wNegdly.toNat * 2 ^ 9 + b.status.rpv.toNat * 2 ^ 16
      ∧ (b.readWord .status).toNat % 16 ≤ 6
      ∧ (b.readWord .status).toNat / 16 % 16 = 0
      ∧ (b.readWord .status).toNat / 2 ^ 10 % 2 ^ 6 = 0
      ∧ (b.readWord .status).toNat / 2 ^ 17 = 0

/-- R25, R30, R62, R64: a read-write word reads back what the host wrote to it, less its reserved bits. -/
def Obligations.WrittenWordReadsBack : Prop :=
  ∀ (s : State) (w : BusWord) (v : Word) (rest : List HostEvent), s.block.pkt.wf = true →
    s.pending = .write 32 (s.base + w.offset) v :: rest →
      (w = .ctrl → ∃ t, step s = .next t
        ∧ (t.block.readWord w).toNat = v.toNat / 2 ^ 8 % 2 ^ 8 * 2 ^ 8 + v.toNat % 4)
      ∧ (w = .dNeg → ∃ t, step s = .next t ∧ (t.block.readWord w).toNat = v.toNat % 2)
      ∧ ((w = .rxLen ∨ w = .dNanos ∨ w = .dSecsHi ∨ w = .dSecsLo ∨ (∃ j, w = .pkt j)
            ∨ (∃ r, r ≠ .x0 ∧ (w = .xHi r ∨ w = .xLo r))) →
          ∃ t, step s = .next t ∧ t.block.readWord w = v)

/-- R64, R20: a bus write of one half of Xi changes those 32 bits and keeps the other half, so that a
command run then sees the new half and the old one; every other register stays. -/
def Obligations.HalfRegisterWrite : Prop :=
  ∀ (s : State) (r : Reg) (v : Word) (rest : List HostEvent), r ≠ .x0 →
    (s.pending = .write 32 (s.base + (0x040 + 8 * (regNum r).toNat)) v :: rest →
      ∃ t, step s = .next t ∧ RegsSameBut r s t
        ∧ (t.readX r).toNat = v.toNat * 2 ^ 32 + (s.readX r).toNat % 2 ^ 32)
    ∧ (s.pending = .write 32 (s.base + (0x044 + 8 * (regNum r).toNat)) v :: rest →
      ∃ t, step s = .next t ∧ RegsSameBut r s t
        ∧ (t.readX r).toNat = (s.readX r).toNat / 2 ^ 32 * 2 ^ 32 + v.toNat)

/-- R63, R20: a write to ID, STATUS, TXOFF, X0_HI, X0_LO or any RPk word is accepted and ignored. -/
def Obligations.ReadOnlyWordsIgnoreWrites : Prop :=
  ∀ (s : State) (w : BusWord) (v : Word) (rest : List HostEvent),
    (w = .id ∨ w = .status ∨ w = .txOff ∨ w = .xHi .x0 ∨ w = .xLo .x0
      ∨ (∃ k, w = .rpHi k ∨ w = .rpLo k)) →
    s.pending = .write 32 (s.base + w.offset) v :: rest →
      step s = .next { s with pending := rest }

/-- R64: a bus write to any word but CMD changes no other word of the window. -/
def Obligations.BusWriteChangesOnlyItsWord : Prop :=
  ∀ (s : State) (w u : BusWord) (v : Word) (rest : List HostEvent),
    s.block.pkt.wf = true → w ≠ .cmd → u ≠ w →
    s.pending = .write 32 (s.base + w.offset) v :: rest →
      ∃ t, step s = .next t ∧ t.block.readWord u = s.block.readWord u

/-- R71: writing the same word twice to a location that is no CMD leaves the block as writing it once. -/
def Obligations.RepeatedWriteIsOneWrite : Prop :=
  ∀ (s : State) (w : BusWord) (v : Word) (rest : List HostEvent), s.block.pkt.wf = true → w ≠ .cmd →
    s.pending = .write 32 (s.base + w.offset) v :: .write 32 (s.base + w.offset) v :: rest →
      ∃ t u, step s = .next t ∧ step t = .next u ∧ u.block = t.block

/-- R62: PKTj reads as PKT[4j] to PKT[4j+3], most significant first, a write of it sets those bytes so, and no
other byte changes. -/
def Obligations.PacketWordPacking : Prop :=
  (∀ (s : State) (j : Fin 12), (s.block.readWord (.pkt j)).toNat
      = (s.pktByte (4 * j.val)).toNat * 2 ^ 24 + (s.pktByte (4 * j.val + 1)).toNat * 2 ^ 16
        + (s.pktByte (4 * j.val + 2)).toNat * 2 ^ 8 + (s.pktByte (4 * j.val + 3)).toNat)
  ∧ ∀ (s : State) (j : Fin 12) (v : Word) (rest : List HostEvent), s.block.pkt.wf = true →
    s.pending = .write 32 (s.base + (0x100 + 4 * j.val)) v :: rest →
      ∃ t, step s = .next t
        ∧ (t.pktByte (4 * j.val)).toNat = v.toNat / 2 ^ 24
        ∧ (t.pktByte (4 * j.val + 1)).toNat = v.toNat / 2 ^ 16 % 256
        ∧ (t.pktByte (4 * j.val + 2)).toNat = v.toNat / 2 ^ 8 % 256
        ∧ (t.pktByte (4 * j.val + 3)).toNat = v.toNat % 256
        ∧ PktSameOutside (4 * j.val) 4 s t

/-! ## Every command (00_scope.md R9, 10_state.md R20 to R35, 40_control.md R130) -/

/-- R24, R130: every command completes, in every state; it writes ERR and both warnings, each 1 only
where its rule sets it; and only DEC writes RPV. -/
def Obligations.EveryCommandCompletesWithStatus : Prop :=
  ∀ (i : Instr) (s : State), ∃ t, exec i s = .next t
    ∧ (t.block.status.wUnsync = true ↔
        (i = .dec ∧ t.block.status.err = .ok ∧ (s.pktByte 0).toNat / 64 = 3))
    ∧ (t.block.status.wNegdly = true ↔
        ∃ rd r1 r2 r3 r4, i = .delay rd r1 r2 r3 r4
          ∧ sdiff (s.readX r4) (s.readX r1) - sdiff (s.readX r3) (s.readX r2) < 0)
    ∧ (i ≠ .dec → t.block.status.rpv = s.block.status.rpv)

/-- R21, R25, R28, R32: no command changes what the host does next, the window's place, CTRL or RX_LEN; only
DEC writes the reply registers; D is written by TS2D, U2D, S2D and H2D only, PKT by ENC and SETTS
only, and a general register only as a command's RD. -/
def Obligations.WhichCommandWritesWhat : Prop :=
  ∀ (i : Instr) (s t : State), exec i s = .next t →
    HostSideSame s t ∧ ControlSame s t
      ∧ (i ≠ .dec → t.block.rp = s.block.rp)
      ∧ ((∀ r, i ≠ .ts2d r ∧ i ≠ .u2d r ∧ i ≠ .s2d r ∧ i ≠ .h2d r) → t.block.d = s.block.d)
      ∧ ((∀ r v m k, i ≠ .enc r v m ∧ i ≠ .setts r k) → PktSame s t)
      ∧ (∀ q, destOf i ≠ some q → t.readX q = s.readX q)

/-- R102, R20: X0 reads 0 after every command; a command whose RD is X0 writes no register and changes
STATUS as it would with any other RD. -/
def Obligations.X0DestinationIsDiscarded : Prop :=
  (∀ (i : Instr) (s t : State), exec i s = .next t →
    t.readX .x0 = 0#64 ∧ (destOf i = some .x0 → RegsSame s t))
  ∧ ∀ (i : Instr) (q : Reg) (s t : State), exec i s = .next t →
      ∃ u, exec (withDest q i) s = .next u ∧ u.block.status = t.block.status
        ∧ u.block.d = t.block.d ∧ u.block.rp = t.block.rp ∧ PktSame t u

/-- R34: no command reads a STATUS flag: from two states that differ in STATUS alone, every command
leaves the same everything else, the same code and the same warnings. -/
def Obligations.CommandsDoNotReadStatus : Prop :=
  ∀ (i : Instr) (s t : State) (st : Status), exec i s = .next t →
    ∃ u, exec i (s.setStatus st) = .next u
      ∧ u = t.setStatus { t.block.status with rpv := u.block.status.rpv }

/-- R25: CTRL is read by DEC (UNSYNC_FATAL) and by TS2D and D2TS (ERA_MODE, ERA) only. -/
def Obligations.WhichCommandReadsCtrl : Prop :=
  ∀ (i : Instr) (s t : State) (c : Ctrl), exec i s = .next t →
    (i = .dec → c.unsyncFatal = s.block.ctrl.unsyncFatal) →
    ((∃ r, i = .ts2d r ∨ i = .d2ts r) →
      c.eraMode = s.block.ctrl.eraMode ∧ c.era = s.block.ctrl.era) →
      exec i (s.setCtrl c) = .next (t.setCtrl c)

/-- R132: NOP is the word 0; it writes STATUS and nothing else. -/
def Obligations.NopClearsStatus : Prop :=
  EncodedAs .nop 0
    ∧ ∀ s : State, ∃ t, exec .nop s = .next t ∧ Ends .ok false false s t ∧ SameButStatus s t

/-! ## The packet marshaller (41_packet.md) -/

/-- R140: ENC, its word and its effect. -/
def Obligations.EncBuildsTheRequest : Prop :=
  ∀ (s : State) (rs1 : Reg) (vn mode : BitVec 3),
    EncodedAs (.enc rs1 vn mode)
        (0x10 + (regNum rs1).toNat * 2 ^ 11 + vn.toNat * 2 ^ 23 + mode.toNat * 2 ^ 26)
    ∧ ∃ t, exec (.enc rs1 vn mode) s = .next t
      ∧ (t.pktByte 0).toNat = vn.toNat * 8 + mode.toNat
      ∧ (∀ a, 1 ≤ a → a < 40 → t.pktByte a = 0#8)
      ∧ t.bigEndian 40 8 = (s.readX rs1).toNat
      ∧ Ends .ok false false s t ∧ SameButPkt s t

/-- R141, R251: DEC's word, its checks in their order, what each outcome writes, that nothing else is
written, and that a second DEC changes nothing. The latched values are `Obligations.LatchedFields`. -/
def Obligations.DecChecksInOrder : Prop :=
  EncodedAs .dec 0x11
  ∧ ∀ s : State, ∃ t, exec .dec s = .next t ∧ exec .dec t = .next t
    ∧ HostSideSame s t ∧ ControlSame s t ∧ RegsSame s t ∧ t.block.d = s.block.d ∧ PktSame s t
    ∧ t.block.status.wNegdly = false
    ∧ (s.block.rxLen.toNat ≠ 48 →
        t.block.status.err = .malformed ∧ t.block.status.wUnsync = false
          ∧ t.block.status.rpv = false ∧ t.block.rp = s.block.rp)
    ∧ (s.block.rxLen.toNat = 48 →
        (s.pktByte 0).toNat % 8 ≠ 4 → (s.pktByte 0).toNat % 8 ≠ 2 →
        t.block.status.err = .invmode ∧ t.block.status.wUnsync = false
          ∧ t.block.status.rpv = false ∧ t.block.rp = s.block.rp)
    ∧ (s.block.rxLen.toNat = 48 →
        (s.pktByte 0).toNat % 8 = 4 ∨ (s.pktByte 0).toNat % 8 = 2 →
        t.block.status.rpv = true ∧ t.block.rp = latchedReply s.block.pkt
          ∧ ((s.pktByte 1).toNat = 0 →
              t.block.status.err = .kod ∧ t.block.status.wUnsync = false)
          ∧ ((s.pktByte 1).toNat ≠ 0 → (s.pktByte 0).toNat / 64 ≠ 3 →
              t.block.status.err = .ok ∧ t.block.status.wUnsync = false)
          ∧ ((s.pktByte 1).toNat ≠ 0 → (s.pktByte 0).toNat / 64 = 3 →
              s.block.ctrl.unsyncFatal = true →
              t.block.status.err = .unsync ∧ t.block.status.wUnsync = false)
          ∧ ((s.pktByte 1).toNat ≠ 0 → (s.pktByte 0).toNat / 64 = 3 →
              s.block.ctrl.unsyncFatal = false →
              t.block.status.err = .ok ∧ t.block.status.wUnsync = true))

/-- R142: the numbers of the thirteen reply registers, and what a latch puts into each, as numbers read off
the bytes. -/
def Obligations.LatchedFields : Prop :=
  ([ReplyReg.li, .vn, .mode, .stratum, .poll, .prec, .rootdelay, .rootdisp, .refid, .refts, .orgts, .rxts,
      .txts].map replyNum
    = [0, 1, 2, 3, 4, 5, 6, 7, 8, 9, 10, 11, 12])
  ∧ ∀ s : State, s.block.rxLen.toNat = 48 →
    (s.pktByte 0).toNat % 8 = 4 ∨ (s.pktByte 0).toNat % 8 = 2 →
    ∃ t, exec .dec s = .next t
      ∧ (t.block.rp.read .li).toNat = (s.pktByte 0).toNat / 64
      ∧ (t.block.rp.read .vn).toNat = (s.pktByte 0).toNat / 8 % 8
      ∧ (t.block.rp.read .mode).toNat = (s.pktByte 0).toNat % 8
      ∧ (t.block.rp.read .stratum).toNat = (s.pktByte 1).toNat
      ∧ (t.block.rp.read .poll).toNat = (s.pktByte 2).toNat
      ∧ (t.block.rp.read .prec).toInt = (s.pktByte 3).toInt
      ∧ (t.block.rp.read .rootdelay).toNat = s.bigEndian 4 4
      ∧ (t.block.rp.read .rootdisp).toNat = s.bigEndian 8 4
      ∧ (t.block.rp.read .refid).toNat = s.bigEndian 12 4
      ∧ (t.block.rp.read .refts).toNat = s.bigEndian 16 8
      ∧ (t.block.rp.read .orgts).toNat = s.bigEndian 24 8
      ∧ (t.block.rp.read .rxts).toNat = s.bigEndian 32 8
      ∧ (t.block.rp.read .txts).toNat = s.bigEndian 40 8

/-- R143: after a KOD the reason code's four characters stand in RP_REFID, the first in bits 31:24, and are
what the bus reads at 0x0C4 and what RPGET of register 8 copies. -/
def Obligations.KissOfDeathReasonCode : Prop :=
  ∀ s t : State, exec .dec s = .next t → t.block.status.err = .kod →
    (t.block.rp.read .refid).toNat
        = (s.pktByte 12).toNat * 2 ^ 24 + (s.pktByte 13).toNat * 2 ^ 16
          + (s.pktByte 14).toNat * 2 ^ 8 + (s.pktByte 15).toNat
      ∧ (∃ w, busWordAt 0x0C4 = some w
          ∧ (t.block.readWord w).toNat = (t.block.rp.read .refid).toNat)
      ∧ ∀ rd, rd ≠ .x0 → ∃ u, exec (.rpget rd 8#4) t = .next u ∧ u.readX rd = t.block.rp.read .refid

/-- R144: DEC is total: exactly one of the five codes, and PKT, RX_LEN and CTRL as before; run twice on the
same buffer it gives the same result (R141, corner cases). -/
def Obligations.DecIsTotalAndRepeatable : Prop :=
  ∀ s : State, ∃ t, exec .dec s = .next t
    ∧ (t.block.status.err = .ok ∨ t.block.status.err = .malformed ∨ t.block.status.err = .invmode
        ∨ t.block.status.err = .kod ∨ t.block.status.err = .unsync)
    ∧ t.block.status.err ≠ .illegal ∧ t.block.status.err ≠ .range
    ∧ PktSame s t ∧ ControlSame s t
    ∧ exec .dec t = .next t

/-- R145: SETTS, its word; it stores the register's eight bytes at the slot's offset, most significant
first, and changes no other byte. -/
def Obligations.SettsStoresTheSlot : Prop :=
  ∀ (s : State) (rs1 : Reg) (k : Slot), s.block.pkt.wf = true →
    EncodedAs (.setts rs1 k) (0x12 + (regNum rs1).toNat * 2 ^ 11 + (slotNum k).toNat * 2 ^ 23)
    ∧ ∃ t, exec (.setts rs1 k) s = .next t
      ∧ t.bigEndian (slotOffset k) 8 = (s.readX rs1).toNat
      ∧ slotOffset .ref = 16 ∧ slotOffset .org = 24 ∧ slotOffset .rx = 32 ∧ slotOffset .tx = 40
      ∧ PktSameOutside (slotOffset k) 8 s t
      ∧ Ends .ok false false s t ∧ SameButPkt s t

/-- R146: GETTS, its word; it reads the slot's eight bytes, most significant first, into RD. -/
def Obligations.GettsLoadsTheSlot : Prop :=
  ∀ (s : State) (rd : Reg) (k : Slot),
    EncodedAs (.getts rd k) (0x13 + (regNum rd).toNat * 2 ^ 8 + (slotNum k).toNat * 2 ^ 23)
    ∧ ∃ t v, exec (.getts rd k) s = .next t
      ∧ BitVec.toNat v = s.bigEndian (16 + 8 * (slotNum k).toNat) 8
      ∧ XWritten rd v s t ∧ Ends .ok false false s t ∧ SameButRegs s t

/-- R147: RPGET, its word; it copies the reply register SEL, whatever RPV says, and SEL above 12 is illegal. -/
def Obligations.RpgetCopiesTheReplyRegister : Prop :=
  (∀ w : Word, w.toNat % 256 = 0x14 → 12 < w.toNat / 2 ^ 23 % 16 → ∃ r, decode w = .illegal r)
  ∧ ∀ (s : State) (rd : Reg) (k : ReplyReg),
    EncodedAs (.rpget rd (BitVec.ofNat 4 (replyNum k)))
        (0x14 + (regNum rd).toNat * 2 ^ 8 + replyNum k * 2 ^ 23)
    ∧ ∃ t, exec (.rpget rd (BitVec.ofNat 4 (replyNum k))) s = .next t
      ∧ XWritten rd (s.block.rp.read k) s t ∧ Ends .ok false false s t ∧ SameButRegs s t

/-- R148: a timestamp goes through the packet buffer without loss: by SETTS and GETTS for every slot, and
by ENC and DEC for modes 2 and 4; a request of mode 3 is refused and latches nothing. -/
def Obligations.TimestampRoundTrip : Prop :=
  (∀ (s : State) (rs rd : Reg) (k : Slot), s.block.pkt.wf = true →
    ∃ t u, exec (.setts rs k) s = .next t ∧ exec (.getts rd k) t = .next u
      ∧ XWritten rd (s.readX rs) s u)
  ∧ (∀ (s : State) (rs : Reg) (vn m : BitVec 3), m = 2#3 ∨ m = 4#3 →
    ∃ t u, exec (.enc rs vn m) s = .next t ∧ exec .dec (t.setRxLen 48#32) = .next u
      ∧ u.block.rp.read .txts = s.readX rs ∧ u.block.status.err = .kod)
  ∧ (∀ (s : State) (rs : Reg) (vn : BitVec 3),
    ∃ t u, exec (.enc rs vn 3#3) s = .next t ∧ exec .dec (t.setRxLen 48#32) = .next u
      ∧ u.block.rp = s.block.rp ∧ u.block.status.err = .invmode)

/-! ## The timestamp encoder/decoder (42_convert.md) -/

/-- R184 with R181: TS2D, its word and its effect. It adds the era of CTRL: fixed, or by bit 31 of the
seconds. -/
def Obligations.Ts2dResult : Prop :=
  ∀ (s : State) (rs1 : Reg),
    EncodedAs (.ts2d rs1) (0x20 + (regNum rs1).toNat * 2 ^ 11)
    ∧ ∃ t e, exec (.ts2d rs1) s = .next t
      ∧ (s.block.ctrl.eraMode = false → e = s.block.ctrl.era.toNat)
      ∧ (s.block.ctrl.eraMode = true → 2 ^ 63 ≤ (s.readX rs1).toNat → e = s.block.ctrl.era.toNat)
      ∧ (s.block.ctrl.eraMode = true → (s.readX rs1).toNat < 2 ^ 63 →
          e = s.block.ctrl.era.toNat + 1)
      ∧ t.block.d.neg = false
      ∧ t.block.d.secs.toNat = e * 2 ^ 32 + (s.readX rs1).toNat / 2 ^ 32
      ∧ IsFloor t.block.d.nanos.toNat ((s.readX rs1).toNat % 2 ^ 32 * 10 ^ 9) (2 ^ 32)
      ∧ Ends .ok false false s t ∧ SameButD s t

/-- R185: U2D, its word and its effect. -/
def Obligations.U2dResult : Prop :=
  ∀ (s : State) (rs1 : Reg),
    EncodedAs (.u2d rs1) (0x21 + (regNum rs1).toNat * 2 ^ 11)
    ∧ ∃ t, exec (.u2d rs1) s = .next t
      ∧ t.block.d.neg = false
      ∧ t.block.d.secs.toNat = (s.readX rs1).toNat / 2 ^ 32
      ∧ IsFloor t.block.d.nanos.toNat ((s.readX rs1).toNat % 2 ^ 32 * 10 ^ 9) (2 ^ 32)
      ∧ Ends .ok false false s t ∧ SameButD s t

/-- R186 with R183: S2D, its word and its effect. It converts the magnitude of the signed value; a magnitude
that converts to zero is +0. -/
def Obligations.S2dResult : Prop :=
  ∀ (s : State) (rs1 : Reg),
    EncodedAs (.s2d rs1) (0x22 + (regNum rs1).toNat * 2 ^ 11)
    ∧ ∃ t, exec (.s2d rs1) s = .next t
      ∧ t.block.d.secs.toNat = (s.readX rs1).toInt.natAbs / 2 ^ 32
      ∧ IsFloor t.block.d.nanos.toNat ((s.readX rs1).toInt.natAbs % 2 ^ 32 * 10 ^ 9) (2 ^ 32)
      ∧ (t.block.d.neg = true ↔
          ((s.readX rs1).toInt < 0
            ∧ (t.block.d.secs.toNat ≠ 0 ∨ t.block.d.nanos.toNat ≠ 0)))
      ∧ Ends .ok false false s t ∧ SameButD s t

/-- R187: H2D, its word and its effect. It reads bits 31:0 as signed 16.16 and ignores bits 63:32; a negative
input never becomes +0. -/
def Obligations.H2dResult : Prop :=
  ∀ (s : State) (rs1 : Reg),
    EncodedAs (.h2d rs1) (0x23 + (regNum rs1).toNat * 2 ^ 11)
    ∧ ∃ (t : State) (w : Word), exec (.h2d rs1) s = .next t
      ∧ w.toNat = (s.readX rs1).toNat % 2 ^ 32
      ∧ t.block.d.secs.toNat = w.toInt.natAbs / 2 ^ 16
      ∧ IsFloor t.block.d.nanos.toNat (w.toInt.natAbs % 2 ^ 16 * 10 ^ 9) (2 ^ 16)
      ∧ (t.block.d.neg = true ↔ w.toInt < 0)
      ∧ Ends .ok false false s t ∧ SameButD s t

/-- R188: D2TS, its word; it writes the timestamp of a valid, not negative D in the era window, and reports
RANGE with nothing else written otherwise. -/
def Obligations.D2tsResult : Prop :=
  ∀ (s : State) (rd : Reg),
    EncodedAs (.d2ts rd) (0x24 + (regNum rd).toNat * 2 ^ 8)
    ∧ (s.block.d.nanos.toNat < 10 ^ 9 → ¬ NegativeD s.block.d →
      InEraWindow s.block.ctrl s.block.d.secs.toNat →
      ∃ t f v, exec (.d2ts rd) s = .next t
        ∧ IsCeil f (s.block.d.nanos.toNat * 2 ^ 32) (10 ^ 9)
        ∧ BitVec.toNat v = s.block.d.secs.toNat % 2 ^ 32 * 2 ^ 32 + f
        ∧ XWritten rd v s t ∧ Ends .ok false false s t ∧ SameButRegs s t)
    ∧ (10 ^ 9 ≤ s.block.d.nanos.toNat ∨ NegativeD s.block.d
        ∨ ¬ InEraWindow s.block.ctrl s.block.d.secs.toNat →
      ∃ t, exec (.d2ts rd) s = .next t ∧ Ends .range false false s t ∧ SameButStatus s t)

/-- R189: D2U, its word; it writes the unsigned 32.32 value of a valid, not negative D below 2^32 s, and
reports RANGE with nothing else written otherwise. -/
def Obligations.D2uResult : Prop :=
  ∀ (s : State) (rd : Reg),
    EncodedAs (.d2u rd) (0x25 + (regNum rd).toNat * 2 ^ 8)
    ∧ (s.block.d.nanos.toNat < 10 ^ 9 → ¬ NegativeD s.block.d → s.block.d.secs.toNat < 2 ^ 32 →
      ∃ t f v, exec (.d2u rd) s = .next t
        ∧ IsCeil f (s.block.d.nanos.toNat * 2 ^ 32) (10 ^ 9)
        ∧ BitVec.toNat v = s.block.d.secs.toNat * 2 ^ 32 + f
        ∧ XWritten rd v s t ∧ Ends .ok false false s t ∧ SameButRegs s t)
    ∧ (10 ^ 9 ≤ s.block.d.nanos.toNat ∨ NegativeD s.block.d ∨ 2 ^ 32 ≤ s.block.d.secs.toNat →
      ∃ t, exec (.d2u rd) s = .next t ∧ Ends .range false false s t ∧ SameButStatus s t)

/-- R190: D2S, its word; it writes the signed 32.32 value of a valid D in [−2^63, 2^63 − 1] units, and
reports RANGE with nothing else written otherwise. -/
def Obligations.D2sResult : Prop :=
  ∀ (s : State) (rd : Reg), EncodedAs (.d2s rd) (0x26 + (regNum rd).toNat * 2 ^ 8) ∧ ∃ f m : Nat,
    IsCeil f (s.block.d.nanos.toNat * 2 ^ 32) (10 ^ 9)
    ∧ m = s.block.d.secs.toNat * 2 ^ 32 + f
    ∧ (s.block.d.nanos.toNat < 10 ^ 9 →
      (s.block.d.neg = false → m ≤ 2 ^ 63 - 1) → (s.block.d.neg = true → m ≤ 2 ^ 63) →
      ∃ t v, exec (.d2s rd) s = .next t
        ∧ (s.block.d.neg = false → BitVec.toInt v = m) ∧ (s.block.d.neg = true → BitVec.toInt v = -m)
        ∧ XWritten rd v s t ∧ Ends .ok false false s t ∧ SameButRegs s t)
    ∧ (10 ^ 9 ≤ s.block.d.nanos.toNat ∨ (s.block.d.neg = false ∧ 2 ^ 63 - 1 < m)
        ∨ (s.block.d.neg = true ∧ 2 ^ 63 < m) →
      ∃ t, exec (.d2s rd) s = .next t ∧ Ends .range false false s t ∧ SameButStatus s t)

/-- R191: D2H, its word; it writes the signed 16.16 pattern of a valid D in [−2^31, 2^31 − 1] units,
zero-extended, and reports RANGE with nothing else written otherwise. -/
def Obligations.D2hResult : Prop :=
  ∀ (s : State) (rd : Reg), EncodedAs (.d2h rd) (0x27 + (regNum rd).toNat * 2 ^ 8) ∧ ∃ f m : Nat,
    IsCeil f (s.block.d.nanos.toNat * 2 ^ 16) (10 ^ 9)
    ∧ m = s.block.d.secs.toNat * 2 ^ 16 + f
    ∧ (s.block.d.nanos.toNat < 10 ^ 9 →
      (s.block.d.neg = false → m ≤ 2 ^ 31 - 1) → (s.block.d.neg = true → m ≤ 2 ^ 31) →
      ∃ (t : State) (p : Word), exec (.d2h rd) s = .next t
        ∧ (s.block.d.neg = false → p.toInt = m) ∧ (s.block.d.neg = true → p.toInt = -m)
        ∧ XWritten rd (p.setWidth 64) s t ∧ Ends .ok false false s t ∧ SameButRegs s t)
    ∧ (10 ^ 9 ≤ s.block.d.nanos.toNat ∨ (s.block.d.neg = false ∧ 2 ^ 31 - 1 < m)
        ∨ (s.block.d.neg = true ∧ 2 ^ 31 < m) →
      ∃ t, exec (.d2h rd) s = .next t ∧ Ends .range false false s t ∧ SameButStatus s t)

/-- R182: the model's window test is the rule's; a seconds count is in window exactly when its era and its
32 bits give it back; and the window is 2^32 consecutive seconds. -/
def Obligations.EraWindowIsOneEraLong : Prop :=
  ∀ c : Ctrl,
    (∀ S, c.inWindow S = true ↔ InEraWindow c S)
      ∧ (∀ S, InEraWindow c S ↔
          c.eraOf (BitVec.ofNat 32 (S % 2 ^ 32)) * 2 ^ 32 + S % 2 ^ 32 = S)
      ∧ ∃ lo, ∀ S, InEraWindow c S ↔ (lo ≤ S ∧ S < lo + 2 ^ 32)

/-- R195: from D to 32.32 and back is exact, for every D the command accepts and the same CTRL; a D with
NEG 1 and zero magnitude comes back with NEG 0. -/
def Obligations.DurationRoundTripIsExact : Prop :=
  (∀ n : Nat, n < 10 ^ 9 → frac32ToNs (nsToFrac32 n) = n)
  ∧ ∀ (s t : State) (rd : Reg), rd ≠ .x0 → t.block.status.err = .ok →
    (exec (.d2u rd) s = .next t →
      ∃ u, exec (.u2d rd) t = .next u ∧ u.block.d = plainZero s.block.d)
    ∧ (exec (.d2s rd) s = .next t →
      ∃ u, exec (.s2d rd) t = .next u ∧ u.block.d = plainZero s.block.d)
    ∧ (exec (.d2ts rd) s = .next t →
      ∃ u, exec (.ts2d rd) t = .next u ∧ u.block.d = plainZero s.block.d)

/-- R196: from 32.32 to D and back loses at most 4 units of 2^-32 s, and a second round trip changes
nothing: for fractions, for timestamps, for unsigned values and for the magnitude of signed values. -/
def Obligations.FixedPointRoundTripIsStable : Prop :=
  (∀ f : Nat, f < 2 ^ 32 →
    f - 4 ≤ nsToFrac32 (frac32ToNs f) ∧ nsToFrac32 (frac32ToNs f) ≤ f
      ∧ nsToFrac32 (frac32ToNs (nsToFrac32 (frac32ToNs f))) = nsToFrac32 (frac32ToNs f))
  ∧ (∀ (s : State) (rs rd : Reg), rd ≠ .x0 →
    ∃ t u v w, exec (.ts2d rs) s = .next t ∧ exec (.d2ts rd) t = .next u
      ∧ exec (.ts2d rd) u = .next v ∧ exec (.d2ts rd) v = .next w
      ∧ u.block.status.err = .ok ∧ w.block.status.err = .ok
      ∧ (u.readX rd).toNat ≤ (s.readX rs).toNat ∧ (s.readX rs).toNat ≤ (u.readX rd).toNat + 4
      ∧ w.readX rd = u.readX rd)
  ∧ (∀ (s : State) (rs rd : Reg), rd ≠ .x0 →
    ∃ t u v w, exec (.u2d rs) s = .next t ∧ exec (.d2u rd) t = .next u
      ∧ exec (.u2d rd) u = .next v ∧ exec (.d2u rd) v = .next w
      ∧ u.block.status.err = .ok ∧ w.block.status.err = .ok
      ∧ (u.readX rd).toNat ≤ (s.readX rs).toNat ∧ (s.readX rs).toNat ≤ (u.readX rd).toNat + 4
      ∧ w.readX rd = u.readX rd)
  ∧ ∀ (s : State) (rs rd : Reg), rd ≠ .x0 →
    ∃ t u v w, exec (.s2d rs) s = .next t ∧ exec (.d2s rd) t = .next u
      ∧ exec (.s2d rd) u = .next v ∧ exec (.d2s rd) v = .next w
      ∧ u.block.status.err = .ok ∧ w.block.status.err = .ok
      ∧ (u.readX rd).toInt.natAbs ≤ (s.readX rs).toInt.natAbs
      ∧ (s.readX rs).toInt.natAbs ≤ (u.readX rd).toInt.natAbs + 4
      ∧ (0 ≤ (s.readX rs).toInt → 0 ≤ (u.readX rd).toInt)
      ∧ ((s.readX rs).toInt ≤ 0 → (u.readX rd).toInt ≤ 0)
      ∧ w.readX rd = u.readX rd

/-- R197: from 16.16 to D and back is exact for every input; the other way the nanoseconds rise by 0 to
15,258 with a carry into the seconds. -/
def Obligations.ShortRoundTripIsExact : Prop :=
  (∀ h : Nat, h < 2 ^ 16 → nsToFrac16 (frac16ToNs h) = h)
  ∧ (∀ (s : State) (rs rd : Reg), rd ≠ .x0 →
    ∃ t u, exec (.h2d rs) s = .next t ∧ exec (.d2h rd) t = .next u ∧ u.block.status.err = .ok
      ∧ (u.readX rd).toNat = (s.readX rs).toNat % 2 ^ 32)
  ∧ ∀ (s t : State) (rd : Reg) (a : Int), rd ≠ .x0 → s.block.d.value = some a →
    exec (.d2h rd) s = .next t → t.block.status.err = .ok →
    ∃ u b, exec (.h2d rd) t = .next u ∧ u.block.d.value = some b
      ∧ a.natAbs ≤ b.natAbs ∧ b.natAbs ≤ a.natAbs + 15258

/-- R198: every timestamp converts to D within 1 ns: the value of D in nanoseconds is the floor of the
timestamp's, counted from the epoch of era 0 with the era CTRL gives it. -/
def Obligations.ConversionWithinOneNanosecond : Prop :=
  ∀ (s : State) (rs : Reg), ∃ t a e, exec (.ts2d rs) s = .next t ∧ t.block.d.value = some a
    ∧ e = s.block.ctrl.eraOf (hiHalf (s.readX rs))
    ∧ a * 2 ^ 32 ≤ ((e * 2 ^ 64 + (s.readX rs).toNat : Nat) : Int) * 10 ^ 9
    ∧ ((e * 2 ^ 64 + (s.readX rs).toNat : Nat) : Int) * 10 ^ 9 < (a + 1) * 2 ^ 32

/-! ## The offset/delay unit (43_arith.md) -/

/-- R221 with R220: TSUB, its word; it writes the difference modulo 2^64, whose signed reading is sdiff. -/
def Obligations.TsubResult : Prop :=
  ∀ (s : State) (rd rs1 rs2 : Reg),
    EncodedAs (.tsub rd rs1 rs2)
        (0x30 + (regNum rd).toNat * 2 ^ 8 + (regNum rs1).toNat * 2 ^ 11 + (regNum rs2).toNat * 2 ^ 14)
    ∧ ∃ t v, exec (.tsub rd rs1 rs2) s = .next t
      ∧ (BitVec.toNat v : Int) = (((s.readX rs1).toNat : Int) - (s.readX rs2).toNat) % 2 ^ 64
      ∧ BitVec.toInt v = sdiff (s.readX rs1) (s.readX rs2)
      ∧ XWritten rd v s t ∧ Ends .ok false false s t ∧ SameButRegs s t

/-- R222, R226: OFFSET, its word; it writes exactly the floor of half the exact sum: the signed reading of
the result is that integer, so nothing overflows. -/
def Obligations.OffsetResult : Prop :=
  ∀ (s : State) (rd rs1 rs2 rs3 rs4 : Reg),
    EncodedAs (.offset rd rs1 rs2 rs3 rs4)
        (0x31 + (regNum rd).toNat * 2 ^ 8 + (regNum rs1).toNat * 2 ^ 11 + (regNum rs2).toNat * 2 ^ 14
          + (regNum rs3).toNat * 2 ^ 17 + (regNum rs4).toNat * 2 ^ 20)
    ∧ ∃ t v, exec (.offset rd rs1 rs2 rs3 rs4) s = .next t
      ∧ 2 * BitVec.toInt v ≤ sdiff (s.readX rs2) (s.readX rs1) + sdiff (s.readX rs3) (s.readX rs4)
      ∧ sdiff (s.readX rs2) (s.readX rs1) + sdiff (s.readX rs3) (s.readX rs4)
          < 2 * BitVec.toInt v + 2
      ∧ XWritten rd v s t ∧ Ends .ok false false s t ∧ SameButRegs s t

/-- R223, R226: DELAY, its word; it writes the exact delay where it is not negative, without loss, and 0
with W_NEGDLY where it is. -/
def Obligations.DelayResult : Prop :=
  ∀ (s : State) (rd rs1 rs2 rs3 rs4 : Reg),
    EncodedAs (.delay rd rs1 rs2 rs3 rs4)
        (0x32 + (regNum rd).toNat * 2 ^ 8 + (regNum rs1).toNat * 2 ^ 11 + (regNum rs2).toNat * 2 ^ 14
          + (regNum rs3).toNat * 2 ^ 17 + (regNum rs4).toNat * 2 ^ 20)
    ∧ ∃ d : Int, d = sdiff (s.readX rs4) (s.readX rs1) - sdiff (s.readX rs3) (s.readX rs2)
    ∧ (d < 0 → ∃ t, exec (.delay rd rs1 rs2 rs3 rs4) s = .next t
      ∧ XWritten rd 0#64 s t ∧ Ends .ok false true s t ∧ SameButRegs s t)
    ∧ (0 ≤ d → ∃ t v, exec (.delay rd rs1 rs2 rs3 rs4) s = .next t
      ∧ (BitVec.toNat v : Int) = d
      ∧ XWritten rd v s t ∧ Ends .ok false false s t ∧ SameButRegs s t)

/-- R225: era independence: the timestamps of two instants less than 2^31 s apart, in whatever eras, give
their true difference; TSUB writes it, and OFFSET and DELAY write the true offset and delay. Instants are
counted in units of 2^-32 s. -/
def Obligations.EraIndependence : Prop :=
  (∀ A B : Int, -2 ^ 63 ≤ A - B → A - B < 2 ^ 63 →
    sdiff (BitVec.ofInt 64 A) (BitVec.ofInt 64 B) = A - B
    ∧ ∀ (s : State) (rd a b : Reg), rd ≠ .x0 →
        s.readX a = BitVec.ofInt 64 A → s.readX b = BitVec.ofInt 64 B →
        ∃ t, exec (.tsub rd a b) s = .next t ∧ (t.readX rd).toInt = A - B)
  ∧ ∀ (s : State) (rd r1 r2 r3 r4 : Reg) (A1 A2 A3 A4 : Int), rd ≠ .x0 →
      s.readX r1 = BitVec.ofInt 64 A1 → s.readX r2 = BitVec.ofInt 64 A2 →
      s.readX r3 = BitVec.ofInt 64 A3 → s.readX r4 = BitVec.ofInt 64 A4 →
      (-2 ^ 63 ≤ A2 - A1 → A2 - A1 < 2 ^ 63 → -2 ^ 63 ≤ A3 - A4 → A3 - A4 < 2 ^ 63 →
        ∃ t, exec (.offset rd r1 r2 r3 r4) s = .next t
          ∧ 2 * (t.readX rd).toInt ≤ (A2 - A1) + (A3 - A4)
          ∧ (A2 - A1) + (A3 - A4) < 2 * (t.readX rd).toInt + 2)
      ∧ (-2 ^ 63 ≤ A4 - A1 → A4 - A1 < 2 ^ 63 → -2 ^ 63 ≤ A3 - A2 → A3 - A2 < 2 ^ 63 →
        ∃ t, exec (.delay rd r1 r2 r3 r4) s = .next t
          ∧ (0 ≤ (A4 - A1) - (A3 - A2) → ((t.readX rd).toNat : Int) = (A4 - A1) - (A3 - A2))
          ∧ ((A4 - A1) - (A3 - A2) < 0 → t.readX rd = 0#64))

/-- R227: OFFSET gives 0 exactly when (T2 − T1) − (T4 − T3) is 0 or 1 unit; T1 = 0, T2 = T3 = 1 s, T4 = 4 s
gives −1 s. -/
def Obligations.OffsetZeroExactly : Prop :=
  (∀ (s : State) (rd rs1 rs2 rs3 rs4 : Reg), rd ≠ .x0 →
    ∃ t, exec (.offset rd rs1 rs2 rs3 rs4) s = .next t
      ∧ (t.readX rd = 0#64 ↔
          (sdiff (s.readX rs2) (s.readX rs1) + sdiff (s.readX rs3) (s.readX rs4) = 0
            ∨ sdiff (s.readX rs2) (s.readX rs1) + sdiff (s.readX rs3) (s.readX rs4) = 1)))
  ∧ ∀ (s : State) (rd rs1 rs2 rs3 rs4 : Reg), rd ≠ .x0 →
      s.readX rs1 = 0#64 → s.readX rs2 = 0x100000000#64 → s.readX rs3 = 0x100000000#64 →
      s.readX rs4 = 0x400000000#64 →
      ∃ t, exec (.offset rd rs1 rs2 rs3 rs4) s = .next t ∧ (t.readX rd).toInt = -2 ^ 32

/-- R228: instants in order and within the window of R225 give the true delay, with no warning; so do
T1 ≤ T2 ≤ T3 ≤ T4. -/
def Obligations.OrderedDelayIsExact : Prop :=
  ∀ (s : State) (rd rs1 rs2 rs3 rs4 : Reg) (A1 A2 A3 A4 : Int), rd ≠ .x0 →
    s.readX rs1 = BitVec.ofInt 64 A1 → s.readX rs2 = BitVec.ofInt 64 A2 →
    s.readX rs3 = BitVec.ofInt 64 A3 → s.readX rs4 = BitVec.ofInt 64 A4 →
    A1 ≤ A4 → A4 - A1 < 2 ^ 63 → A2 ≤ A3 → A3 - A2 < 2 ^ 63 →
    (A3 - A2 ≤ A4 - A1 ∨ (A1 ≤ A2 ∧ A3 ≤ A4)) →
    ∃ t, exec (.delay rd rs1 rs2 rs3 rs4) s = .next t
      ∧ ((t.readX rd).toNat : Int) = (A4 - A1) - (A3 - A2)
      ∧ t.block.status.wNegdly = false

/-- R229: TSUB, OFFSET and DELAY read only their source registers: from two states that agree on those
they write the same value, the same code and the same two warnings. -/
def Obligations.ArithmeticReadsOnlySources : Prop :=
  ∀ (s u : State) (rd r1 r2 r3 r4 : Reg),
    s.readX r1 = u.readX r1 → s.readX r2 = u.readX r2 →
    (∃ t v, exec (.tsub rd r1 r2) s = .next t ∧ exec (.tsub rd r1 r2) u = .next v
      ∧ t.readX rd = v.readX rd ∧ t.block.status.err = v.block.status.err
      ∧ t.block.status.wUnsync = v.block.status.wUnsync
      ∧ t.block.status.wNegdly = v.block.status.wNegdly)
    ∧ (s.readX r3 = u.readX r3 → s.readX r4 = u.readX r4 →
      (∃ t v, exec (.offset rd r1 r2 r3 r4) s = .next t ∧ exec (.offset rd r1 r2 r3 r4) u = .next v
        ∧ t.readX rd = v.readX rd ∧ t.block.status.err = v.block.status.err
        ∧ t.block.status.wUnsync = v.block.status.wUnsync
        ∧ t.block.status.wNegdly = v.block.status.wNegdly)
      ∧ ∃ t v, exec (.delay rd r1 r2 r3 r4) s = .next t ∧ exec (.delay rd r1 r2 r3 r4) u = .next v
        ∧ t.readX rd = v.readX rd ∧ t.block.status.err = v.block.status.err
        ∧ t.block.status.wUnsync = v.block.status.wUnsync
        ∧ t.block.status.wNegdly = v.block.status.wNegdly)

/-! ## The invariant and safe runs -/

/-- The reset state meets the invariant (the invariant is the model's, from R22, R32, R33 and R250). -/
def Obligations.ResetMeetsInvariant : Prop :=
  State.reset.Inv

/-- Every step keeps the invariant: the packet buffer stays canonical, the reply registers in width, STATUS
in agreement with the latched reply, and the window aligned. -/
def Obligations.StepKeepsInvariant : Prop :=
  ∀ s t : State, s.Inv → step s = .next t → t.Inv

/-- A host whose accesses are all legal is never stopped: for any number of steps the run goes on, and the
invariant and the legality of what remains are kept. -/
def Obligations.LegalHostIsNeverStopped : Prop :=
  ∀ (k : Nat) (s : State), s.Inv → s.Orderly →
    ∃ t, runFor k s = .next t ∧ t.Inv ∧ t.Orderly
      ∧ t.pending = s.pending.drop k
end

