-- ==== Sys2Proof/Laws/State.lean ====
section
/-! SUPPORT. One lemma per field per update of the state, true by rfl, so that no later proof unfolds a
record update; and reading a register after a write. -/

namespace Sys2Proof.Machine

/-! ## writeX -/

@[simp] theorem State.writeX_x (s : State) (r : Reg) (v : DWord) : (s.writeX r v).block.x = s.block.x.write r v := rfl

@[simp] theorem State.writeX_ctrl (s : State) (r : Reg) (v : DWord) : (s.writeX r v).block.ctrl = s.block.ctrl := rfl

@[simp] theorem State.writeX_status (s : State) (r : Reg) (v : DWord) : (s.writeX r v).block.status = s.block.status := rfl

@[simp] theorem State.writeX_rxLen (s : State) (r : Reg) (v : DWord) : (s.writeX r v).block.rxLen = s.block.rxLen := rfl

@[simp] theorem State.writeX_d (s : State) (r : Reg) (v : DWord) : (s.writeX r v).block.d = s.block.d := rfl

@[simp] theorem State.writeX_rp (s : State) (r : Reg) (v : DWord) : (s.writeX r v).block.rp = s.block.rp := rfl

@[simp] theorem State.writeX_pkt (s : State) (r : Reg) (v : DWord) : (s.writeX r v).block.pkt = s.block.pkt := rfl

@[simp] theorem State.writeX_base (s : State) (r : Reg) (v : DWord) : (s.writeX r v).base = s.base := rfl

@[simp] theorem State.writeX_pending (s : State) (r : Reg) (v : DWord) : (s.writeX r v).pending = s.pending := rfl

@[simp] theorem State.writeX_reads (s : State) (r : Reg) (v : DWord) : (s.writeX r v).reads = s.reads := rfl

/-! ## endCommand -/

@[simp] theorem State.endCommand_x (s : State) (c : Code) (u n : Bool) : (s.endCommand c u n).block.x = s.block.x := rfl

@[simp] theorem State.endCommand_ctrl (s : State) (c : Code) (u n : Bool) : (s.endCommand c u n).block.ctrl = s.block.ctrl := rfl

@[simp] theorem State.endCommand_rxLen (s : State) (c : Code) (u n : Bool) : (s.endCommand c u n).block.rxLen = s.block.rxLen := rfl

@[simp] theorem State.endCommand_d (s : State) (c : Code) (u n : Bool) : (s.endCommand c u n).block.d = s.block.d := rfl

@[simp] theorem State.endCommand_rp (s : State) (c : Code) (u n : Bool) : (s.endCommand c u n).block.rp = s.block.rp := rfl

@[simp] theorem State.endCommand_pkt (s : State) (c : Code) (u n : Bool) : (s.endCommand c u n).block.pkt = s.block.pkt := rfl

@[simp] theorem State.endCommand_base (s : State) (c : Code) (u n : Bool) : (s.endCommand c u n).base = s.base := rfl

@[simp] theorem State.endCommand_pending (s : State) (c : Code) (u n : Bool) : (s.endCommand c u n).pending = s.pending := rfl

@[simp] theorem State.endCommand_reads (s : State) (c : Code) (u n : Bool) : (s.endCommand c u n).reads = s.reads := rfl

@[simp] theorem State.endCommand_err (s : State) (c : Code) (u n : Bool) :
    (s.endCommand c u n).block.status.err = c := rfl

@[simp] theorem State.endCommand_wUnsync (s : State) (c : Code) (u n : Bool) :
    (s.endCommand c u n).block.status.wUnsync = u := rfl

@[simp] theorem State.endCommand_wNegdly (s : State) (c : Code) (u n : Bool) :
    (s.endCommand c u n).block.status.wNegdly = n := rfl

@[simp] theorem State.endCommand_rpv (s : State) (c : Code) (u n : Bool) :
    (s.endCommand c u n).block.status.rpv = s.block.status.rpv := rfl

/-! ## setRpv -/

@[simp] theorem State.setRpv_x (s : State) (b : Bool) : (s.setRpv b).block.x = s.block.x := rfl

@[simp] theorem State.setRpv_ctrl (s : State) (b : Bool) : (s.setRpv b).block.ctrl = s.block.ctrl := rfl

@[simp] theorem State.setRpv_rxLen (s : State) (b : Bool) : (s.setRpv b).block.rxLen = s.block.rxLen := rfl

@[simp] theorem State.setRpv_d (s : State) (b : Bool) : (s.setRpv b).block.d = s.block.d := rfl

@[simp] theorem State.setRpv_rp (s : State) (b : Bool) : (s.setRpv b).block.rp = s.block.rp := rfl

@[simp] theorem State.setRpv_pkt (s : State) (b : Bool) : (s.setRpv b).block.pkt = s.block.pkt := rfl

@[simp] theorem State.setRpv_base (s : State) (b : Bool) : (s.setRpv b).base = s.base := rfl

@[simp] theorem State.setRpv_pending (s : State) (b : Bool) : (s.setRpv b).pending = s.pending := rfl

@[simp] theorem State.setRpv_reads (s : State) (b : Bool) : (s.setRpv b).reads = s.reads := rfl

@[simp] theorem State.setRpv_err (s : State) (b : Bool) :
    (s.setRpv b).block.status.err = s.block.status.err := rfl

@[simp] theorem State.setRpv_wUnsync (s : State) (b : Bool) :
    (s.setRpv b).block.status.wUnsync = s.block.status.wUnsync := rfl

@[simp] theorem State.setRpv_wNegdly (s : State) (b : Bool) :
    (s.setRpv b).block.status.wNegdly = s.block.status.wNegdly := rfl

@[simp] theorem State.setRpv_rpv (s : State) (b : Bool) :
    (s.setRpv b).block.status.rpv = b := rfl

/-! ## setPkt -/

@[simp] theorem State.setPkt_x (s : State) (m : Memory) : (s.setPkt m).block.x = s.block.x := rfl

@[simp] theorem State.setPkt_ctrl (s : State) (m : Memory) : (s.setPkt m).block.ctrl = s.block.ctrl := rfl

@[simp] theorem State.setPkt_status (s : State) (m : Memory) : (s.setPkt m).block.status = s.block.status := rfl

@[simp] theorem State.setPkt_rxLen (s : State) (m : Memory) : (s.setPkt m).block.rxLen = s.block.rxLen := rfl

@[simp] theorem State.setPkt_d (s : State) (m : Memory) : (s.setPkt m).block.d = s.block.d := rfl

@[simp] theorem State.setPkt_rp (s : State) (m : Memory) : (s.setPkt m).block.rp = s.block.rp := rfl

@[simp] theorem State.setPkt_pkt (s : State) (m : Memory) : (s.setPkt m).block.pkt = m := rfl

@[simp] theorem State.setPkt_base (s : State) (m : Memory) : (s.setPkt m).base = s.base := rfl

@[simp] theorem State.setPkt_pending (s : State) (m : Memory) : (s.setPkt m).pending = s.pending := rfl

@[simp] theorem State.setPkt_reads (s : State) (m : Memory) : (s.setPkt m).reads = s.reads := rfl

/-! ## setD -/

@[simp] theorem State.setD_x (s : State) (d : Duration) : (s.setD d).block.x = s.block.x := rfl

@[simp] theorem State.setD_ctrl (s : State) (d : Duration) : (s.setD d).block.ctrl = s.block.ctrl := rfl

@[simp] theorem State.setD_status (s : State) (d : Duration) : (s.setD d).block.status = s.block.status := rfl

@[simp] theorem State.setD_rxLen (s : State) (d : Duration) : (s.setD d).block.rxLen = s.block.rxLen := rfl

@[simp] theorem State.setD_d (s : State) (d : Duration) : (s.setD d).block.d = d := rfl

@[simp] theorem State.setD_rp (s : State) (d : Duration) : (s.setD d).block.rp = s.block.rp := rfl

@[simp] theorem State.setD_pkt (s : State) (d : Duration) : (s.setD d).block.pkt = s.block.pkt := rfl

@[simp] theorem State.setD_base (s : State) (d : Duration) : (s.setD d).base = s.base := rfl

@[simp] theorem State.setD_pending (s : State) (d : Duration) : (s.setD d).pending = s.pending := rfl

@[simp] theorem State.setD_reads (s : State) (d : Duration) : (s.setD d).reads = s.reads := rfl

/-! ## setRp -/

@[simp] theorem State.setRp_x (s : State) (p : ReplyRegs) : (s.setRp p).block.x = s.block.x := rfl

@[simp] theorem State.setRp_ctrl (s : State) (p : ReplyRegs) : (s.setRp p).block.ctrl = s.block.ctrl := rfl

@[simp] theorem State.setRp_status (s : State) (p : ReplyRegs) : (s.setRp p).block.status = s.block.status := rfl

@[simp] theorem State.setRp_rxLen (s : State) (p : ReplyRegs) : (s.setRp p).block.rxLen = s.block.rxLen := rfl

@[simp] theorem State.setRp_d (s : State) (p : ReplyRegs) : (s.setRp p).block.d = s.block.d := rfl

@[simp] theorem State.setRp_rp (s : State) (p : ReplyRegs) : (s.setRp p).block.rp = p := rfl

@[simp] theorem State.setRp_pkt (s : State) (p : ReplyRegs) : (s.setRp p).block.pkt = s.block.pkt := rfl

@[simp] theorem State.setRp_base (s : State) (p : ReplyRegs) : (s.setRp p).base = s.base := rfl

@[simp] theorem State.setRp_pending (s : State) (p : ReplyRegs) : (s.setRp p).pending = s.pending := rfl

@[simp] theorem State.setRp_reads (s : State) (p : ReplyRegs) : (s.setRp p).reads = s.reads := rfl

/-! ## setCtrl -/

@[simp] theorem State.setCtrl_x (s : State) (c : Ctrl) : (s.setCtrl c).block.x = s.block.x := rfl

@[simp] theorem State.setCtrl_ctrl (s : State) (c : Ctrl) : (s.setCtrl c).block.ctrl = c := rfl

@[simp] theorem State.setCtrl_status (s : State) (c : Ctrl) : (s.setCtrl c).block.status = s.block.status := rfl

@[simp] theorem State.setCtrl_rxLen (s : State) (c : Ctrl) : (s.setCtrl c).block.rxLen = s.block.rxLen := rfl

@[simp] theorem State.setCtrl_d (s : State) (c : Ctrl) : (s.setCtrl c).block.d = s.block.d := rfl

@[simp] theorem State.setCtrl_rp (s : State) (c : Ctrl) : (s.setCtrl c).block.rp = s.block.rp := rfl

@[simp] theorem State.setCtrl_pkt (s : State) (c : Ctrl) : (s.setCtrl c).block.pkt = s.block.pkt := rfl

@[simp] theorem State.setCtrl_base (s : State) (c : Ctrl) : (s.setCtrl c).base = s.base := rfl

@[simp] theorem State.setCtrl_pending (s : State) (c : Ctrl) : (s.setCtrl c).pending = s.pending := rfl

@[simp] theorem State.setCtrl_reads (s : State) (c : Ctrl) : (s.setCtrl c).reads = s.reads := rfl

/-! ## setStatus -/

@[simp] theorem State.setStatus_x (s : State) (t : Status) : (s.setStatus t).block.x = s.block.x := rfl

@[simp] theorem State.setStatus_ctrl (s : State) (t : Status) : (s.setStatus t).block.ctrl = s.block.ctrl := rfl

@[simp] theorem State.setStatus_status (s : State) (t : Status) : (s.setStatus t).block.status = t := rfl

@[simp] theorem State.setStatus_rxLen (s : State) (t : Status) : (s.setStatus t).block.rxLen = s.block.rxLen := rfl

@[simp] theorem State.setStatus_d (s : State) (t : Status) : (s.setStatus t).block.d = s.block.d := rfl

@[simp] theorem State.setStatus_rp (s : State) (t : Status) : (s.setStatus t).block.rp = s.block.rp := rfl

@[simp] theorem State.setStatus_pkt (s : State) (t : Status) : (s.setStatus t).block.pkt = s.block.pkt := rfl

@[simp] theorem State.setStatus_base (s : State) (t : Status) : (s.setStatus t).base = s.base := rfl

@[simp] theorem State.setStatus_pending (s : State) (t : Status) : (s.setStatus t).pending = s.pending := rfl

@[simp] theorem State.setStatus_reads (s : State) (t : Status) : (s.setStatus t).reads = s.reads := rfl

/-! ## setRxLen -/

@[simp] theorem State.setRxLen_x (s : State) (n : Word) : (s.setRxLen n).block.x = s.block.x := rfl

@[simp] theorem State.setRxLen_ctrl (s : State) (n : Word) : (s.setRxLen n).block.ctrl = s.block.ctrl := rfl

@[simp] theorem State.setRxLen_status (s : State) (n : Word) : (s.setRxLen n).block.status = s.block.status := rfl

@[simp] theorem State.setRxLen_rxLen (s : State) (n : Word) : (s.setRxLen n).block.rxLen = n := rfl

@[simp] theorem State.setRxLen_d (s : State) (n : Word) : (s.setRxLen n).block.d = s.block.d := rfl

@[simp] theorem State.setRxLen_rp (s : State) (n : Word) : (s.setRxLen n).block.rp = s.block.rp := rfl

@[simp] theorem State.setRxLen_pkt (s : State) (n : Word) : (s.setRxLen n).block.pkt = s.block.pkt := rfl

@[simp] theorem State.setRxLen_base (s : State) (n : Word) : (s.setRxLen n).base = s.base := rfl

@[simp] theorem State.setRxLen_pending (s : State) (n : Word) : (s.setRxLen n).pending = s.pending := rfl

@[simp] theorem State.setRxLen_reads (s : State) (n : Word) : (s.setRxLen n).reads = s.reads := rfl

/-! ## latch -/

@[simp] theorem State.latch_x (s : State) : s.latch.block.x = s.block.x := rfl

@[simp] theorem State.latch_ctrl (s : State) : s.latch.block.ctrl = s.block.ctrl := rfl

@[simp] theorem State.latch_rxLen (s : State) : s.latch.block.rxLen = s.block.rxLen := rfl

@[simp] theorem State.latch_d (s : State) : s.latch.block.d = s.block.d := rfl

@[simp] theorem State.latch_pkt (s : State) : s.latch.block.pkt = s.block.pkt := rfl

@[simp] theorem State.latch_rp (s : State) : s.latch.block.rp = latchedReply s.block.pkt := rfl

@[simp] theorem State.latch_rpv (s : State) : s.latch.block.status.rpv = true := rfl

@[simp] theorem State.latch_base (s : State) : s.latch.base = s.base := rfl

@[simp] theorem State.latch_pending (s : State) : s.latch.pending = s.pending := rfl

@[simp] theorem State.latch_reads (s : State) : s.latch.reads = s.reads := rfl

/-! ## finish and raise are ends of a command -/

@[simp] theorem State.finish_eq (s : State) : s.finish = s.endCommand .ok false false := rfl

@[simp] theorem State.raise_eq (s : State) (c : Code) : s.raise c = s.endCommand c false false := rfl

/-! ## Registers -/

@[simp] theorem GRegs.read_x0 (g : GRegs) : g.read .x0 = 0#64 := rfl

@[simp] theorem State.readX_x0 (s : State) : s.readX .x0 = 0#64 := rfl

@[simp] theorem GRegs.write_x0 (g : GRegs) (v : DWord) : g.write .x0 v = g := rfl

/-- A register reads what was written to it, unless it is X0. -/
@[simp] theorem GRegs.read_write_same (g : GRegs) (r : Reg) (v : DWord) (h : r ≠ .x0) :
    (g.write r v).read r = v := by
  cases r <;> first | rfl | exact absurd rfl h

/-- A write leaves every other register alone. -/
@[simp] theorem GRegs.read_write_other (g : GRegs) (r q : Reg) (v : DWord) (h : q ≠ r) :
    (g.write r v).read q = g.read q := by
  cases r <;> cases q <;> first | rfl | exact absurd rfl h

/-- Registers are equal when every register reads the same. -/
theorem GRegs.eq_of_read (g h : GRegs) (e : ∀ r, g.read r = h.read r) : g = h := by
  cases g
  cases h
  simp only [GRegs.mk.injEq]
  exact ⟨e .x1, e .x2, e .x3, e .x4, e .x5, e .x6, e .x7⟩

/-- The result of a register write, as claims say it. -/
theorem State.writeX_written (s : State) (rd : Reg) (v : DWord) : XWritten rd v s (s.writeX rd v) :=
  ⟨fun h => by simp [State.readX, h], fun h => by subst h; rfl, fun r h => by simp [State.readX, h]⟩

/-- Only the registers of a state matter to a register read. -/
theorem State.readX_congr (s t : State) (h : t.block.x = s.block.x) : RegsSame s t := fun r => by
  simp [State.readX, h]

end Sys2Proof.Machine
end

