-- ==== Sys2Proof/Laws/Bits.lean ====
section
/-! SUPPORT. Fields and concatenations as numbers: what puts bit vectors together and takes them apart,
said once by division and remainder, so that later proofs close by omega. -/

namespace Sys2Proof

/-- `x ++ y` as a number (00_scope.md R6). -/
theorem toNat_concat {n m : Nat} (x : BitVec n) (y : BitVec m) :
    (x ++ y).toNat = x.toNat * 2 ^ m + y.toNat := by
  rw [BitVec.toNat_append, ← Nat.shiftLeft_add_eq_or_of_lt y.isLt, Nat.shiftLeft_eq]

/-- `v[lo + len - 1 : lo]` as a number (00_scope.md R6). -/
theorem toNat_field {n : Nat} (x : BitVec n) (lo len : Nat) :
    (x.extractLsb' lo len).toNat = x.toNat / 2 ^ lo % 2 ^ len := by
  rw [BitVec.extractLsb'_toNat, Nat.shiftRight_eq_div_pow]

/-! ## Command words -/

/-- The word of format R as a number: the formula of 30_encoding.md R101. -/
theorem toNat_packR (imm : BitVec 9) (rs4 rs3 rs2 rs1 rd : BitVec 3) (op : Byte) :
    (packR imm rs4 rs3 rs2 rs1 rd op).toNat
      = imm.toNat * 2 ^ 23 + rs4.toNat * 2 ^ 20 + rs3.toNat * 2 ^ 17 + rs2.toNat * 2 ^ 14
        + rs1.toNat * 2 ^ 11 + rd.toNat * 2 ^ 8 + op.toNat := by
  refine (toNat_concat _ _).trans ?_
  rw [toNat_concat, toNat_concat, toNat_concat, toNat_concat, toNat_concat]
  omega

section Fields

variable (imm : BitVec 9) (rs4 rs3 rs2 rs1 rd : BitVec 3) (op : Byte)

@[simp] theorem fieldOP_packR : fieldOP (packR imm rs4 rs3 rs2 rs1 rd op) = op := by
  apply BitVec.eq_of_toNat_eq
  rw [fieldOP, toNat_field, toNat_packR]
  omega

@[simp] theorem fieldRD_packR : fieldRD (packR imm rs4 rs3 rs2 rs1 rd op) = rd := by
  apply BitVec.eq_of_toNat_eq
  rw [fieldRD, toNat_field, toNat_packR]
  omega

@[simp] theorem fieldRS1_packR : fieldRS1 (packR imm rs4 rs3 rs2 rs1 rd op) = rs1 := by
  apply BitVec.eq_of_toNat_eq
  rw [fieldRS1, toNat_field, toNat_packR]
  omega

@[simp] theorem fieldRS2_packR : fieldRS2 (packR imm rs4 rs3 rs2 rs1 rd op) = rs2 := by
  apply BitVec.eq_of_toNat_eq
  rw [fieldRS2, toNat_field, toNat_packR]
  omega

@[simp] theorem fieldRS3_packR : fieldRS3 (packR imm rs4 rs3 rs2 rs1 rd op) = rs3 := by
  apply BitVec.eq_of_toNat_eq
  rw [fieldRS3, toNat_field, toNat_packR]
  omega

@[simp] theorem fieldRS4_packR : fieldRS4 (packR imm rs4 rs3 rs2 rs1 rd op) = rs4 := by
  apply BitVec.eq_of_toNat_eq
  rw [fieldRS4, toNat_field, toNat_packR]
  omega

@[simp] theorem fieldIMM_packR : fieldIMM (packR imm rs4 rs3 rs2 rs1 rd op) = imm := by
  apply BitVec.eq_of_toNat_eq
  rw [fieldIMM, toNat_field, toNat_packR]
  omega

end Fields

/-- A word is its fields put together (30_encoding.md R101). -/
theorem packR_fields (w : Word) :
    packR (fieldIMM w) (fieldRS4 w) (fieldRS3 w) (fieldRS2 w) (fieldRS1 w) (fieldRD w) (fieldOP w)
      = w := by
  apply BitVec.eq_of_toNat_eq
  rw [toNat_packR]
  simp only [fieldIMM, fieldRS4, fieldRS3, fieldRS2, fieldRS1, fieldRD, fieldOP, toNat_field]
  omega

/-! ## Masks -/

@[simp] theorem fieldOP_and (x y : Word) : fieldOP (x &&& y) = fieldOP x &&& fieldOP y :=
  BitVec.extractLsb'_and

@[simp] theorem fieldRD_and (x y : Word) : fieldRD (x &&& y) = fieldRD x &&& fieldRD y :=
  BitVec.extractLsb'_and

@[simp] theorem fieldRS1_and (x y : Word) : fieldRS1 (x &&& y) = fieldRS1 x &&& fieldRS1 y :=
  BitVec.extractLsb'_and

@[simp] theorem fieldRS2_and (x y : Word) : fieldRS2 (x &&& y) = fieldRS2 x &&& fieldRS2 y :=
  BitVec.extractLsb'_and

@[simp] theorem fieldRS3_and (x y : Word) : fieldRS3 (x &&& y) = fieldRS3 x &&& fieldRS3 y :=
  BitVec.extractLsb'_and

@[simp] theorem fieldRS4_and (x y : Word) : fieldRS4 (x &&& y) = fieldRS4 x &&& fieldRS4 y :=
  BitVec.extractLsb'_and

@[simp] theorem fieldIMM_and (x y : Word) : fieldIMM (x &&& y) = fieldIMM x &&& fieldIMM y :=
  BitVec.extractLsb'_and

/-- A mask works field by field. -/
theorem packR_and (i j : BitVec 9) (a4 a3 a2 a1 ad b4 b3 b2 b1 bd : BitVec 3) (p q : Byte) :
    packR i a4 a3 a2 a1 ad p &&& packR j b4 b3 b2 b1 bd q
      = packR (i &&& j) (a4 &&& b4) (a3 &&& b3) (a2 &&& b2) (a1 &&& b1) (ad &&& bd) (p &&& q) := by
  rw [← packR_fields (packR i a4 a3 a2 a1 ad p &&& packR j b4 b3 b2 b1 bd q)]
  simp

/-- A row matches the word of its opcode whose used fields are left alone by the row's mask. -/
theorem selects_packR (o : Opcode) (i j : BitVec 9) (a4 a3 a2 a1 ad b4 b3 b2 b1 bd : BitVec 3)
    (hm : o.mask = packR j b4 b3 b2 b1 bd 0xFF#8)
    (hi : i &&& j = 0) (h4 : a4 &&& b4 = 0) (h3 : a3 &&& b3 = 0) (h2 : a2 &&& b2 = 0)
    (h1 : a1 &&& b1 = 0) (hd : ad &&& bd = 0) :
    o.selects (packR i a4 a3 a2 a1 ad o.code) = true := by
  have hc : o.code &&& 0xFF#8 = o.code := by cases o <;> rfl
  have hw : o.matchWord = packR 0 0 0 0 0 0 o.code := by cases o <;> rfl
  rw [Opcode.selects, hm, packR_and, hi, h4, h3, h2, h1, hd, hc, hw]
  exact decide_eq_true rfl

@[simp] theorem immVN_enc (vn mode : BitVec 3) : immVN (immOfEnc vn mode) = vn := by
  apply BitVec.eq_of_toNat_eq
  rw [immVN, toNat_field, immOfEnc]
  rw [show (0#3 ++ mode ++ vn : BitVec 9).toNat = _ from toNat_concat (0#3 ++ mode) vn]
  omega

@[simp] theorem immMODE_enc (vn mode : BitVec 3) : immMODE (immOfEnc vn mode) = mode := by
  apply BitVec.eq_of_toNat_eq
  rw [immMODE, toNat_field, immOfEnc]
  rw [show (0#3 ++ mode ++ vn : BitVec 9).toNat = _ from toNat_concat (0#3 ++ mode) vn, toNat_concat]
  simp only [BitVec.toNat_ofNat]
  omega

@[simp] theorem immSLOT_slot (k : Slot) : immSLOT (immOfSlot k) = slotNum k := by
  cases k <;> rfl

@[simp] theorem immSEL_sel (sel : BitVec 4) : immSEL (immOfSel sel) = sel := by
  apply BitVec.eq_of_toNat_eq
  rw [immSEL, toNat_field, immOfSel]
  rw [show (0#5 ++ sel : BitVec 9).toNat = _ from toNat_concat 0#5 sel]
  simp only [BitVec.toNat_ofNat]
  omega

@[simp] theorem regOf_regNum (r : Reg) : regOf (regNum r) = r := by cases r <;> rfl

@[simp] theorem regNum_regOf (n : BitVec 3) : regNum (regOf n) = n := by revert n; decide

@[simp] theorem slotOf_slotNum (k : Slot) : slotOf (slotNum k) = k := by cases k <;> rfl

@[simp] theorem slotNum_slotOf (n : BitVec 2) : slotNum (slotOf n) = n := by revert n; decide

@[simp] theorem replyOf_replyNum (k : ReplyReg) : replyOf (replyNum k) = some k := by
  cases k <;> rfl

@[simp] theorem ofCode_code (o : Opcode) : Opcode.ofCode o.code = some o := by cases o <;> rfl

/-- A byte that is read as an opcode is that opcode's code. -/
theorem code_of_ofCode (b : Byte) (o : Opcode) (h : Opcode.ofCode b = some o) : o.code = b := by
  unfold Opcode.ofCode at h
  apply BitVec.eq_of_toNat_eq
  split at h <;> first | (cases h; simp [Opcode.code, *]) | cases h

namespace Machine

/-! ## Halves, bytes, bus words -/

theorem toNat_joinHalves (h l : Word) : (joinHalves h l).toNat = h.toNat * 2 ^ 32 + l.toNat :=
  toNat_concat h l

theorem toNat_hiHalf (v : DWord) : (hiHalf v).toNat = v.toNat / 2 ^ 32 := by
  rw [hiHalf, toNat_field]
  omega

theorem toNat_loHalf (v : DWord) : (loHalf v).toNat = v.toNat % 2 ^ 32 := by
  rw [loHalf, toNat_field]
  omega

@[simp] theorem hiHalf_join (h l : Word) : hiHalf (joinHalves h l) = h := by
  apply BitVec.eq_of_toNat_eq
  rw [toNat_hiHalf, toNat_joinHalves]
  omega

@[simp] theorem loHalf_join (h l : Word) : loHalf (joinHalves h l) = l := by
  apply BitVec.eq_of_toNat_eq
  rw [toNat_loHalf, toNat_joinHalves]
  omega

@[simp] theorem joinHalves_halves (v : DWord) : joinHalves (hiHalf v) (loHalf v) = v := by
  apply BitVec.eq_of_toNat_eq
  rw [toNat_joinHalves, toNat_hiHalf, toNat_loHalf]
  omega

/-- Four bytes put together are the word they were taken from (20_memory.md R62). -/
theorem word_of_bytes (v : Word) :
    v.extractLsb' 24 8 ++ v.extractLsb' 16 8 ++ v.extractLsb' 8 8 ++ v.extractLsb' 0 8 = v := by
  apply BitVec.eq_of_toNat_eq
  refine (toNat_concat _ _).trans ?_
  rw [toNat_concat, toNat_concat]
  simp only [toNat_field]
  omega

/-- `MemRead(a, 4)` as a number. -/
theorem toNat_read32 (m : Memory) (a : Nat) :
    (m.read32 a).toNat = (m.read a).toNat * 2 ^ 24 + (m.read (a + 1)).toNat * 2 ^ 16
      + (m.read (a + 2)).toNat * 2 ^ 8 + (m.read (a + 3)).toNat := by
  refine (toNat_concat _ _).trans ?_
  rw [toNat_concat, toNat_concat]
  omega

/-- `MemRead(a, 8)` as a number. -/
theorem toNat_read64 (m : Memory) (a : Nat) :
    (m.read64 a).toNat = (m.read32 a).toNat * 2 ^ 32 + (m.read32 (a + 4)).toNat :=
  toNat_concat _ _

/-- The header byte as a number (20_memory.md R67). -/
theorem toNat_headerByte (li : BitVec 2) (vn mode : BitVec 3) :
    (headerByte li vn mode).toNat = li.toNat * 64 + vn.toNat * 8 + mode.toNat := by
  refine (toNat_concat _ _).trans ?_
  rw [toNat_concat]
  omega

theorem toNat_headerLI (b : Byte) : (headerLI b).toNat = b.toNat / 64 := by
  rw [headerLI, toNat_field]
  omega

theorem toNat_headerVN (b : Byte) : (headerVN b).toNat = b.toNat / 8 % 8 := by
  rw [headerVN, toNat_field]
  omega

theorem toNat_headerMode (b : Byte) : (headerMode b).toNat = b.toNat % 8 := by
  rw [headerMode, toNat_field]
  omega

/-- STATUS as a number (10_state.md R22). -/
theorem toNat_statusWord (t : Status) :
    t.word.toNat = t.rpv.toNat * 2 ^ 16 + t.wNegdly.toNat * 2 ^ 9 + t.wUnsync.toNat * 2 ^ 8
      + (codeNum t.err).toNat := by
  refine (toNat_concat _ _).trans ?_
  rw [toNat_concat, toNat_concat, toNat_concat, toNat_concat, toNat_concat]
  simp only [BitVec.toNat_ofNat, BitVec.toNat_ofBool]
  omega

/-- CTRL as a number (10_state.md R25). -/
theorem toNat_ctrlWord (c : Ctrl) :
    c.word.toNat = c.era.toNat * 2 ^ 8 + c.eraMode.toNat * 2 + c.unsyncFatal.toNat := by
  refine (toNat_concat _ _).trans ?_
  rw [toNat_concat, toNat_concat, toNat_concat]
  simp only [BitVec.toNat_ofNat, BitVec.toNat_ofBool]
  omega

/-- D_NEG as the bus reads it, as a number (10_state.md R30). -/
theorem toNat_dNegWord (b : Block) : (b.readWord .dNeg).toNat = b.d.neg.toNat := by
  show ((BitVec.ofBool b.d.neg).setWidth 32).toNat = b.d.neg.toNat
  cases b.d.neg <;> rfl

end Machine

end Sys2Proof
end

