-- ==== Sys2Proof/Laws/Memory.lean ====
section
/-! SUPPORT. The packet buffer as a canonical list: every write keeps the form, a byte reads what was
written to it, and canonical buffers that read alike are equal. -/

namespace Sys2Proof.Machine

/-! ## Canonical form -/

theorem Memory.risesFrom_mono {lo lo' : Nat} (m : Memory) (hle : lo' ≤ lo)
    (h : m.risesFrom lo = true) : m.risesFrom lo' = true := by
  cases m with
  | nil => rfl
  | cons c m =>
    obtain ⟨a, v⟩ := c
    simp only [Memory.risesFrom, Bool.and_eq_true, decide_eq_true_eq] at h ⊢
    exact ⟨⟨⟨by omega, h.1.1.2⟩, h.1.2⟩, h.2⟩

/-- Below its first address a canonical buffer reads blank. -/
theorem Memory.read_below {lo : Nat} (m : Memory) (h : m.risesFrom lo = true) (a : Nat)
    (ha : a < lo) : m.read a = Memory.blank := by
  induction m generalizing lo with
  | nil => rfl
  | cons c m ih =>
    obtain ⟨b, w⟩ := c
    simp only [Memory.risesFrom, Bool.and_eq_true, decide_eq_true_eq] at h
    rw [Memory.read, if_neg (by omega)]
    exact ih h.2 (by omega)

theorem Memory.write_risesFrom {lo : Nat} (m : Memory) (h : m.risesFrom lo = true) (a : Nat)
    (v : Byte) (hlo : lo ≤ a) (ha : a < 48) : (m.write a v).risesFrom lo = true := by
  induction m generalizing lo with
  | nil =>
    rw [Memory.write]
    split
    · rfl
    · next hv => simp [Memory.risesFrom, Config.packetBytes, hlo, ha, hv]
  | cons c m ih =>
    obtain ⟨b, w⟩ := c
    simp only [Memory.risesFrom, Bool.and_eq_true, decide_eq_true_eq] at h
    obtain ⟨⟨⟨h1, h2⟩, h3⟩, h4⟩ := h
    rw [Memory.write]
    split
    · split
      · simp [Memory.risesFrom, h1, h2, h3, h4]
      · next hab hv =>
        simp only [Memory.risesFrom, Bool.and_eq_true, decide_eq_true_eq]
        exact ⟨⟨⟨hlo, ha⟩, hv⟩, ⟨⟨by omega, h2⟩, h3⟩, h4⟩
    · split
      · next hab =>
        subst hab
        split
        · exact Memory.risesFrom_mono m (by omega) h4
        · next hv => simp [Memory.risesFrom, h1, h2, h4, hv]
      · next hab hne =>
        simp only [Memory.risesFrom, Bool.and_eq_true, decide_eq_true_eq]
        exact ⟨⟨⟨h1, h2⟩, h3⟩, ih h4 (by omega)⟩

/-- Every write to one of the 48 bytes keeps the canonical form. -/
theorem Memory.write_wf (m : Memory) (h : m.wf = true) (a : Nat) (v : Byte) (ha : a < 48) :
    (m.write a v).wf = true :=
  Memory.write_risesFrom m h a v (Nat.zero_le a) ha

theorem Memory.zero_wf : Memory.zero.wf = true := rfl

theorem Memory.write32_wf (m : Memory) (h : m.wf = true) (a : Nat) (v : Word) (ha : a + 4 ≤ 48) :
    (m.write32 a v).wf = true := by
  unfold Memory.write32
  refine Memory.write_wf _ (Memory.write_wf _ (Memory.write_wf _ (Memory.write_wf _ h _ _ ?_) _ _ ?_)
    _ _ ?_) _ _ ?_ <;> omega

theorem Memory.write64_wf (m : Memory) (h : m.wf = true) (a : Nat) (v : DWord) (ha : a + 8 ≤ 48) :
    (m.write64 a v).wf = true := by
  unfold Memory.write64
  exact Memory.write32_wf _ (Memory.write32_wf _ h _ _ (by omega)) _ _ (by omega)

/-! ## Read after write -/

theorem Memory.read_write_risesFrom {lo : Nat} (m : Memory) (h : m.risesFrom lo = true) (a : Nat)
    (v : Byte) : (m.write a v).read a = v := by
  induction m generalizing lo with
  | nil =>
    rw [Memory.write]
    split
    · next hv => rw [Memory.read, hv]
    · rw [Memory.read, if_pos rfl]
  | cons c m ih =>
    obtain ⟨b, w⟩ := c
    simp only [Memory.risesFrom, Bool.and_eq_true, decide_eq_true_eq] at h
    rw [Memory.write]
    split
    · next hab =>
      split
      · next hv =>
        rw [Memory.read, if_neg (by omega), hv]
        exact Memory.read_below m h.2 a (by omega)
      · rw [Memory.read, if_pos rfl]
    · split
      · next hab =>
        subst hab
        split
        · next hv => rw [hv]; exact Memory.read_below m h.2 a (by omega)
        · rw [Memory.read, if_pos rfl]
      · next hab hne =>
        rw [Memory.read, if_neg hne]
        exact ih h.2

/-- A byte reads what was written to it. -/
theorem Memory.read_write_same (m : Memory) (h : m.wf = true) (a : Nat) (v : Byte) :
    (m.write a v).read a = v :=
  Memory.read_write_risesFrom m h a v

theorem Memory.read_write_other_risesFrom {lo : Nat} (m : Memory) (h : m.risesFrom lo = true)
    (a b : Nat) (v : Byte) (hne : b ≠ a) : (m.write a v).read b = m.read b := by
  induction m generalizing lo with
  | nil =>
    rw [Memory.write]
    split
    · rfl
    · simp only [Memory.read, if_neg hne]
  | cons c m ih =>
    obtain ⟨x, w⟩ := c
    simp only [Memory.risesFrom, Bool.and_eq_true, decide_eq_true_eq] at h
    rw [Memory.write]
    split
    · split
      · rfl
      · rw [Memory.read, if_neg hne]
    · split
      · next hax =>
        subst hax
        split
        · rw [Memory.read, if_neg hne]
        · rw [Memory.read, if_neg hne, Memory.read, if_neg hne]
      · rw [Memory.read, Memory.read]
        split
        · rfl
        · exact ih h.2

/-- A write leaves every other byte alone. -/
theorem Memory.read_write_other (m : Memory) (h : m.wf = true) (a b : Nat) (v : Byte) (hne : b ≠ a) :
    (m.write a v).read b = m.read b :=
  Memory.read_write_other_risesFrom m h a b v hne

/-! ## Words -/

/-- A word write leaves every byte outside its four alone. -/
theorem Memory.read_write32_other (m : Memory) (h : m.wf = true) (a b : Nat) (v : Word)
    (ha : a + 4 ≤ 48) (hb : b < a ∨ a + 4 ≤ b) : (m.write32 a v).read b = m.read b := by
  unfold Memory.write32
  have h1 := Memory.write_wf m h a (v.extractLsb' 24 8) (by omega)
  have h2 := Memory.write_wf _ h1 (a + 1) (v.extractLsb' 16 8) (by omega)
  have h3 := Memory.write_wf _ h2 (a + 2) (v.extractLsb' 8 8) (by omega)
  rw [Memory.read_write_other _ h3 _ _ _ (by omega), Memory.read_write_other _ h2 _ _ _ (by omega),
    Memory.read_write_other _ h1 _ _ _ (by omega), Memory.read_write_other _ h _ _ _ (by omega)]

/-- The bytes of a written word, most significant first (20_memory.md R62). -/
theorem Memory.read_write32_bytes (m : Memory) (h : m.wf = true) (a : Nat) (v : Word)
    (ha : a + 4 ≤ 48) :
    (m.write32 a v).read a = v.extractLsb' 24 8
      ∧ (m.write32 a v).read (a + 1) = v.extractLsb' 16 8
      ∧ (m.write32 a v).read (a + 2) = v.extractLsb' 8 8
      ∧ (m.write32 a v).read (a + 3) = v.extractLsb' 0 8 := by
  have h1 := Memory.write_wf m h a (v.extractLsb' 24 8) (by omega)
  have h2 := Memory.write_wf _ h1 (a + 1) (v.extractLsb' 16 8) (by omega)
  have h3 := Memory.write_wf _ h2 (a + 2) (v.extractLsb' 8 8) (by omega)
  unfold Memory.write32
  refine ⟨?_, ?_, ?_, Memory.read_write_same _ h3 _ _⟩
  · rw [Memory.read_write_other _ h3 _ _ _ (by omega), Memory.read_write_other _ h2 _ _ _ (by omega),
      Memory.read_write_other _ h1 _ _ _ (by omega), Memory.read_write_same _ h]
  · rw [Memory.read_write_other _ h3 _ _ _ (by omega), Memory.read_write_other _ h2 _ _ _ (by omega),
      Memory.read_write_same _ h1]
  · rw [Memory.read_write_other _ h3 _ _ _ (by omega), Memory.read_write_same _ h2]

/-- A word reads what was written to it. -/
theorem Memory.read32_write32 (m : Memory) (h : m.wf = true) (a : Nat) (v : Word)
    (ha : a + 4 ≤ 48) : (m.write32 a v).read32 a = v := by
  obtain ⟨h0, h1, h2, h3⟩ := Memory.read_write32_bytes m h a v ha
  unfold Memory.read32
  rw [h0, h1, h2, h3]
  exact word_of_bytes v

/-- A word elsewhere reads as before. -/
theorem Memory.read32_write32_other (m : Memory) (h : m.wf = true) (a b : Nat) (v : Word)
    (ha : a + 4 ≤ 48) (hb : b + 4 ≤ a ∨ a + 4 ≤ b) : (m.write32 a v).read32 b = m.read32 b := by
  unfold Memory.read32
  rw [Memory.read_write32_other m h a b v ha (by omega),
    Memory.read_write32_other m h a (b + 1) v ha (by omega),
    Memory.read_write32_other m h a (b + 2) v ha (by omega),
    Memory.read_write32_other m h a (b + 3) v ha (by omega)]

/-- A 64-bit value reads what was written to it. -/
theorem Memory.read64_write64 (m : Memory) (h : m.wf = true) (a : Nat) (v : DWord)
    (ha : a + 8 ≤ 48) : (m.write64 a v).read64 a = v := by
  have h1 := Memory.write32_wf m h a (hiHalf v) (by omega)
  unfold Memory.read64 Memory.write64
  rw [Memory.read32_write32_other _ h1 _ _ _ (by omega) (by omega),
    Memory.read32_write32 _ h _ _ (by omega), Memory.read32_write32 _ h1 _ _ (by omega)]
  exact joinHalves_halves v

/-- A 64-bit write leaves every byte outside its eight alone. -/
theorem Memory.read_write64_other (m : Memory) (h : m.wf = true) (a b : Nat) (v : DWord)
    (ha : a + 8 ≤ 48) (hb : b < a ∨ a + 8 ≤ b) : (m.write64 a v).read b = m.read b := by
  unfold Memory.write64
  rw [Memory.read_write32_other _ (Memory.write32_wf m h a _ (by omega)) _ _ _ (by omega) (by omega),
    Memory.read_write32_other m h _ _ _ (by omega) (by omega)]

/-! ## Equal data -/

/-- Canonical buffers that read alike are equal. -/
theorem Memory.eq_of_read {lo : Nat} (m n : Memory) (hm : m.risesFrom lo = true)
    (hn : n.risesFrom lo = true) (e : ∀ a, m.read a = n.read a) : m = n := by
  induction m generalizing n lo with
  | nil =>
    cases n with
    | nil => rfl
    | cons c n =>
      obtain ⟨b, w⟩ := c
      simp only [Memory.risesFrom, Bool.and_eq_true, decide_eq_true_eq] at hn
      have := e b
      simp only [Memory.read, if_true] at this
      exact absurd this.symm hn.1.2
  | cons c m ih =>
    obtain ⟨a, v⟩ := c
    simp only [Memory.risesFrom, Bool.and_eq_true, decide_eq_true_eq] at hm
    cases n with
    | nil =>
      have := e a
      simp only [Memory.read, if_true] at this
      exact absurd this hm.1.2
    | cons c n =>
      obtain ⟨b, w⟩ := c
      have hn' := hn
      simp only [Memory.risesFrom, Bool.and_eq_true, decide_eq_true_eq] at hn
      have hab : a = b := by
        rcases Nat.lt_trichotomy a b with hlt | heq | hgt
        · have := e a
          rw [Memory.read, if_pos rfl, Memory.read, if_neg (by omega),
            Memory.read_below n hn.2 a (by omega)] at this
          exact absurd this hm.1.2
        · exact heq
        · have := e b
          rw [Memory.read, if_neg (by omega), Memory.read, if_pos rfl,
            Memory.read_below m hm.2 b (by omega)] at this
          exact absurd this.symm hn.1.2
      subst hab
      have hv : v = w := by
        have := e a
        rwa [Memory.read, if_pos rfl, Memory.read, if_pos rfl] at this
      subst hv
      congr 1
      refine ih n hm.2 hn.2 fun x => ?_
      by_cases hx : x = a
      · subst hx
        rw [Memory.read_below m hm.2 x (by omega), Memory.read_below n hn.2 x (by omega)]
      · have := e x
        rwa [Memory.read, if_neg hx, Memory.read, if_neg hx] at this

end Sys2Proof.Machine
end

