-- ==== Sys2Proof/Laws/Exec.lean ====
section
/-! SUPPORT. What each shared operation, each command and each bus access can do, said once: later proofs
cite these and do not unfold the step. -/

namespace Sys2Proof.Machine

/-! ## Ends of commands -/

@[simp] theorem State.finishX_next (s : State) (rd : Reg) (v : DWord) :
    s.finishX rd v = .next ((s.writeX rd v).endCommand .ok false false) := rfl

@[simp] theorem State.finishD_next (s : State) (d : Duration) :
    s.finishD d = .next ((s.setD d).endCommand .ok false false) := rfl

@[simp] theorem State.finishConversion_some (s : State) (rd : Reg) (v : DWord) :
    s.finishConversion rd (some v) = .next ((s.writeX rd v).endCommand .ok false false) := rfl

@[simp] theorem State.finishConversion_none (s : State) (rd : Reg) :
    s.finishConversion rd none = .next (s.endCommand .range false false) := rfl

theorem State.finishDelay_negative (s : State) (rd : Reg) (d : Int) (h : d < 0) :
    s.finishDelay rd d = .next ((s.writeX rd 0#64).endCommand .ok false true) := if_pos h

theorem State.finishDelay_exact (s : State) (rd : Reg) (d : Int) (h : 0 ≤ d) :
    s.finishDelay rd d = .next ((s.writeX rd (BitVec.ofInt 64 d)).endCommand .ok false false) :=
  if_neg (by omega)

/-- The end of a command, as claims say it. -/
theorem State.endCommand_ends (s : State) (c : Code) (u n : Bool) : Ends c u n s (s.endCommand c u n) :=
  ⟨rfl, rfl, rfl, rfl⟩

/-! ## DEC -/

/-- DEC on a datagram of another length. -/
theorem execDec_malformed (s : State) (h : s.block.rxLen.toNat ≠ 48) :
    execDec s = .next ((s.setRpv false).endCommand .malformed false false) := by
  rw [execDec, if_pos h, State.raise_eq]

/-- DEC on a datagram of a mode it does not accept. -/
theorem execDec_invmode (s : State) (h : s.block.rxLen.toNat = 48)
    (hm : modeAccepted (headerMode (s.pktByte 0)) = false) :
    execDec s = .next ((s.setRpv false).endCommand .invmode false false) := by
  rw [execDec, if_neg (fun c => c h), if_neg (by simp [hm]), State.raise_eq]

/-- DEC on a datagram of an accepted mode latches it and goes on with the checks. -/
theorem execDec_latch (s : State) (h : s.block.rxLen.toNat = 48)
    (hm : modeAccepted (headerMode (s.pktByte 0)) = true) :
    execDec s = .next s.latch.checkReply := by
  rw [execDec, if_neg (fun c => c h), if_pos hm]

/-- What the checks after the latch can answer: the code, whether it warns, and when. -/
inductive ReplyVerdict (s : State) : Code → Bool → Prop where
  | kod (h1 : s.pktByte 1 = 0#8) : ReplyVerdict s .kod false
  | unsync (h1 : s.pktByte 1 ≠ 0#8) (h2 : headerLI (s.pktByte 0) = 3#2)
      (h3 : s.block.ctrl.unsyncFatal = true) : ReplyVerdict s .unsync false
  | advisory (h1 : s.pktByte 1 ≠ 0#8) (h2 : headerLI (s.pktByte 0) = 3#2)
      (h3 : s.block.ctrl.unsyncFatal = false) : ReplyVerdict s .ok true
  | accepted (h1 : s.pktByte 1 ≠ 0#8) (h2 : headerLI (s.pktByte 0) ≠ 3#2) : ReplyVerdict s .ok false

theorem latch_checkReply (s : State) :
    ∃ c u, s.latch.checkReply = s.latch.endCommand c u false ∧ ReplyVerdict s c u := by
  have hb : ∀ a, s.latch.pktByte a = s.pktByte a := fun _ => rfl
  unfold State.checkReply
  rw [hb, hb, State.latch_ctrl]
  by_cases h1 : s.pktByte 1 = 0#8
  · exact ⟨_, _, if_pos h1, .kod h1⟩
  · rw [if_neg h1]
    by_cases h2 : headerLI (s.pktByte 0) = 3#2
    · rw [if_pos h2]
      cases h3 : s.block.ctrl.unsyncFatal
      · exact ⟨_, _, rfl, .advisory h1 h2 h3⟩
      · exact ⟨_, _, rfl, .unsync h1 h2 h3⟩
    · exact ⟨_, _, if_neg h2, .accepted h1 h2⟩

/-! ## Every command -/

/-- What a command can answer: it always answers a next state, and this is one of six shapes. -/
inductive ExecShape (i : Instr) (s : State) : State → Prop where
  | status (c : Code) (h : i ≠ .dec) (hc : c = .ok ∨ c = .range ∨ c = .illegal) :
      ExecShape i s (s.endCommand c false false)
  | register (rd : Reg) (v : DWord) (n : Bool) (hd : destOf i = some rd) (h : i ≠ .dec)
      (hn : n = true → ∃ r1 r2 r3 r4, i = .delay rd r1 r2 r3 r4
        ∧ exactDelay (s.readX r1) (s.readX r2) (s.readX r3) (s.readX r4) < 0) :
      ExecShape i s ((s.writeX rd v).endCommand .ok false n)
  | duration (r : Reg) (d : Duration)
      (h : i = .ts2d r ∨ i = .u2d r ∨ i = .s2d r ∨ i = .h2d r) :
      ExecShape i s ((s.setD d).endCommand .ok false false)
  | packet (m : Memory) (h : (∃ r v o, i = .enc r v o) ∨ ∃ r k, i = .setts r k)
      (hm : s.block.pkt.wf = true → m.wf = true) :
      ExecShape i s ((s.setPkt m).endCommand .ok false false)
  | refused (c : Code) (h : i = .dec)
      (hc : (c = .malformed ∧ s.block.rxLen.toNat ≠ 48)
        ∨ (c = .invmode ∧ s.block.rxLen.toNat = 48
            ∧ modeAccepted (headerMode (s.pktByte 0)) = false)) :
      ExecShape i s ((s.setRpv false).endCommand c false false)
  | latched (h : i = .dec) (hl : s.block.rxLen.toNat = 48)
      (hm : modeAccepted (headerMode (s.pktByte 0)) = true) (c : Code) (u : Bool)
      (hv : ReplyVerdict s c u) :
      ExecShape i s (s.latch.endCommand c u false)

theorem slotOffset_bound (k : Slot) : slotOffset k + 8 ≤ 48 := by cases k <;> decide

theorem requestPacket_wf (vn mode : BitVec 3) (t : DWord) : (requestPacket vn mode t).wf = true := by
  unfold requestPacket
  exact Memory.write64_wf _ (Memory.write_wf _ Memory.zero_wf _ _ (by decide)) _ _ (by decide)

theorem State.finishConversion_shape (i : Instr) (s : State) (rd : Reg) (o : Option DWord)
    (hd : destOf i = some rd) (h : i ≠ .dec) :
    ∃ t, s.finishConversion rd o = .next t ∧ ExecShape i s t := by
  cases o with
  | none => exact ⟨_, rfl, .status .range h (by simp)⟩
  | some v => exact ⟨_, rfl, .register rd v false hd h (by simp)⟩

/-- Every command answers a next state of one of the shapes (40_control.md R130). -/
theorem exec_shape (i : Instr) (s : State) : ∃ t, exec i s = .next t ∧ ExecShape i s t := by
  cases i with
  | nop => exact ⟨_, rfl, .status .ok (by simp) (by simp)⟩
  | enc r v m =>
    exact ⟨_, rfl, .packet _ (.inl ⟨r, v, m, rfl⟩) fun _ => requestPacket_wf _ _ _⟩
  | dec =>
    show ∃ t, execDec s = .next t ∧ _
    by_cases h : s.block.rxLen.toNat = 48
    · cases hm : modeAccepted (headerMode (s.pktByte 0))
      · exact ⟨_, execDec_invmode s h hm, .refused .invmode rfl (by simp [h, hm])⟩
      · obtain ⟨c, u, he, hv⟩ := latch_checkReply s
        exact ⟨_, (execDec_latch s h hm).trans (congrArg _ he), .latched rfl h hm c u hv⟩
    · exact ⟨_, execDec_malformed s h, .refused .malformed rfl (by simp [h])⟩
  | setts r k =>
    exact ⟨_, rfl, .packet _ (.inr ⟨r, k, rfl⟩)
      fun hw => Memory.write64_wf _ hw _ _ (slotOffset_bound k)⟩
  | getts rd k => exact ⟨_, rfl, .register rd _ false rfl (by simp) (by simp)⟩
  | rpget rd sel =>
    show ∃ t, execRpget rd sel s = .next t ∧ _
    unfold execRpget
    cases replyOf sel.toNat with
    | none => exact ⟨_, rfl, .status .illegal (by simp) (by simp)⟩
    | some k => exact ⟨_, rfl, .register rd _ false rfl (by simp) (by simp)⟩
  | ts2d r => exact ⟨_, rfl, .duration r _ (by simp)⟩
  | u2d r => exact ⟨_, rfl, .duration r _ (by simp)⟩
  | s2d r => exact ⟨_, rfl, .duration r _ (by simp)⟩
  | h2d r => exact ⟨_, rfl, .duration r _ (by simp)⟩
  | d2ts rd => exact State.finishConversion_shape _ s rd _ rfl (by simp)
  | d2u rd => exact State.finishConversion_shape _ s rd _ rfl (by simp)
  | d2s rd => exact State.finishConversion_shape _ s rd _ rfl (by simp)
  | d2h rd => exact State.finishConversion_shape _ s rd _ rfl (by simp)
  | tsub rd a b => exact ⟨_, rfl, .register rd _ false rfl (by simp) (by simp)⟩
  | offset rd a b c d => exact ⟨_, rfl, .register rd _ false rfl (by simp) (by simp)⟩
  | delay rd a b c d =>
    by_cases hneg : exactDelay (s.readX a) (s.readX b) (s.readX c) (s.readX d) < 0
    · exact ⟨_, State.finishDelay_negative s rd _ hneg,
        .register rd 0#64 true rfl (by simp) fun _ => ⟨a, b, c, d, rfl, hneg⟩⟩
    · exact ⟨_, State.finishDelay_exact s rd _ (by omega),
        .register rd _ false rfl (by simp) (by simp)⟩

/-- The shape of a next state a command is known to answer. -/
theorem exec_shape_of_next {i : Instr} {s t : State} (h : exec i s = .next t) : ExecShape i s t := by
  obtain ⟨u, hu, hs⟩ := exec_shape i s
  rw [hu] at h
  cases h
  exact hs

/-! ## The bus -/

/-- Every mapped word stands at its offset. -/
theorem busWordAt_offset (w : BusWord) : busWordAt w.offset = some w := by
  cases w with
  | xHi r => cases r <;> rfl
  | xLo r => cases r <;> rfl
  | rpHi k => cases k <;> rfl
  | rpLo k => cases k <;> rfl
  | pkt j => revert j; decide
  | _ => rfl

/-- Every offset is a multiple of 4 in the window. -/
theorem offset_mapped (w : BusWord) : w.offset % 4 = 0 ∧ w.offset < 0x130 := by
  cases w with
  | xHi r => cases r <;> decide
  | xLo r => cases r <;> decide
  | rpHi k => cases k <;> decide
  | rpLo k => cases k <;> decide
  | pkt j => revert j; decide
  | _ => decide

/-- A legal access lands on its word. -/
theorem locate_offset (base : Nat) (w : BusWord) : locate base 32 (base + w.offset) = .word w := by
  have h := offset_mapped w
  unfold locate
  rw [if_neg (by simp only [Config.windowBytes]; omega), if_neg (by decide), Nat.add_sub_cancel_left,
    if_neg (by omega), busWordAt_offset]

/-- The step on a legal read. -/
theorem step_read (s : State) (w : BusWord) (rest : List HostEvent)
    (h : s.pending = .read 32 (s.base + w.offset) :: rest) :
    step s = hostRead w { s with pending := rest } := by
  simp only [step, h, hostEvent, locate_offset]

/-- The step on a legal write. -/
theorem step_write (s : State) (w : BusWord) (v : Word) (rest : List HostEvent)
    (h : s.pending = .write 32 (s.base + w.offset) v :: rest) :
    step s = hostWrite w v { s with pending := rest } := by
  simp only [step, h, hostEvent, locate_offset]

/-- The step on the reset signal. -/
theorem step_reset (s : State) (rest : List HostEvent) (h : s.pending = .reset :: rest) :
    step s = platformReset { s with pending := rest } := by
  simp only [step, h, hostEvent]

/-- A command word runs a command, or ends as an illegal one; either way there is a next state. -/
theorem runCommand_next (w : Word) (s : State) :
    ∃ t, runCommand w s = .next t
      ∧ ((∃ i, decode w = .command i ∧ ExecShape i s t)
        ∨ t = s.endCommand .illegal false false) := by
  unfold runCommand
  cases h : decode w with
  | command i =>
    obtain ⟨t, ht, hs⟩ := exec_shape i s
    exact ⟨t, ht, .inl ⟨i, rfl, hs⟩⟩
  | illegal r => exact ⟨_, rfl, .inr rfl⟩

/-- A bus write to a word that is not CMD stores it. -/
theorem hostWrite_store (w : BusWord) (v : Word) (s : State) (h : w ≠ .cmd) :
    hostWrite w v s = .next { s with block := s.block.writeWord w v } := if_neg h

/-- A bus write to CMD runs a command. -/
theorem hostWrite_cmd (v : Word) (s : State) : hostWrite .cmd v s = runCommand v s := if_pos rfl

/-- Where an access lands: on a word only where it is a 32-bit access at that word's offset. -/
theorem locate_word {base bits addr : Nat} {w : BusWord} (h : locate base bits addr = .word w) :
    bits = 32 ∧ base ≤ addr ∧ (addr - base) % 4 = 0 ∧ busWordAt (addr - base) = some w := by
  unfold locate at h
  split at h
  · cases h
  · next h1 =>
    split at h
    · cases h
    · next h2 =>
      split at h
      · cases h
      · next h3 =>
        split at h
        · next u hu =>
          cases h
          simp only [Config.busBits, not_not] at h2
          exact ⟨h2, by omega, by omega, hu⟩
        · cases h

end Sys2Proof.Machine
end

