-- ==== Sys2Proof/Laws/Convert.lean ====
section
/-! SUPPORT. The timestamp encoder/decoder, said once: the fraction conversions by their defining
inequalities, the durations the fixed-point forms give, when a duration converts back and what its
value is; and the frames of the shapes every command ends in. -/

namespace Sys2Proof.Machine

/-! ## Fractions (42_convert.md R180) -/

theorem isFloor_div (num den : Nat) (h : 0 < den) : IsFloor (num / den) num den := by
  refine ⟨Nat.div_mul_le_self num den, ?_⟩
  have := Nat.lt_div_mul_add (a := num) h
  rw [Nat.add_mul]
  omega

theorem frac32ToNs_floor (f : Nat) : IsFloor (frac32ToNs f) (f * 10 ^ 9) (2 ^ 32) :=
  isFloor_div _ _ (by decide)

theorem frac16ToNs_floor (f : Nat) : IsFloor (frac16ToNs f) (f * 10 ^ 9) (2 ^ 16) :=
  isFloor_div _ _ (by decide)

theorem nsToFrac32_ceil (n : Nat) : IsCeil (nsToFrac32 n) (n * 2 ^ 32) (10 ^ 9) := by
  unfold IsCeil nsToFrac32 two32 Config.nanosPerSecond
  omega

theorem nsToFrac16_ceil (n : Nat) : IsCeil (nsToFrac16 n) (n * 2 ^ 16) (10 ^ 9) := by
  unfold IsCeil nsToFrac16 two16 Config.nanosPerSecond
  omega

theorem frac32ToNs_lt {f : Nat} (h : f < 2 ^ 32) : frac32ToNs f < 10 ^ 9 := by
  unfold frac32ToNs two32 Config.nanosPerSecond
  omega

theorem frac16ToNs_lt {f : Nat} (h : f < 2 ^ 16) : frac16ToNs f < 10 ^ 9 := by
  unfold frac16ToNs two16 Config.nanosPerSecond
  omega

theorem nsToFrac32_lt {n : Nat} (h : n < 10 ^ 9) : nsToFrac32 n < 2 ^ 32 := by
  unfold nsToFrac32 two32 Config.nanosPerSecond
  omega

theorem nsToFrac16_le {n : Nat} (h : n < 10 ^ 9) : nsToFrac16 n ≤ 2 ^ 16 := by
  unfold nsToFrac16 two16 Config.nanosPerSecond
  omega

theorem two32_eq : two32 = 2 ^ 32 := rfl

theorem two16_eq : two16 = 2 ^ 16 := rfl

/-! ## Durations -/

theorem mkDuration_secs (neg : Bool) {secs : Nat} (nanos : Nat) (h : secs < 2 ^ 64) :
    (mkDuration neg secs nanos).secs.toNat = secs := by
  simp only [mkDuration, BitVec.toNat_ofNat]
  omega

theorem mkDuration_nanos (neg : Bool) (secs : Nat) {nanos : Nat} (h : nanos < 2 ^ 32) :
    (mkDuration neg secs nanos).nanos.toNat = nanos := by
  simp only [mkDuration, BitVec.toNat_ofNat]
  omega

theorem mkDuration_neg (neg : Bool) (secs nanos : Nat) :
    (mkDuration neg secs nanos).neg = true ↔ neg = true ∧ (secs ≠ 0 ∨ nanos ≠ 0) := by
  simp [mkDuration]

theorem Duration.valid_iff (d : Duration) : d.valid = true ↔ d.nanos.toNat < 10 ^ 9 := by
  simp [Duration.valid, Config.nanosPerSecond]

theorem Duration.negative_iff (d : Duration) : d.negative = true ↔ NegativeD d := by
  simp only [Duration.negative, NegativeD, Bool.and_eq_true, Bool.or_eq_true, bne_iff_ne, ne_eq,
    ← BitVec.toNat_inj]
  simp

theorem natAbs_toInt64_le (v : DWord) : v.toInt.natAbs ≤ 2 ^ 63 := by
  have := v.toInt_lt
  have := v.le_toInt
  omega

theorem natAbs_toInt32_le (w : Word) : w.toInt.natAbs ≤ 2 ^ 31 := by
  have := w.toInt_lt
  have := w.le_toInt
  omega

/-! ## Eras (42_convert.md R181, R182) -/

theorem bit31_eq (w : Word) : w.getLsbD 31 = decide (2 ^ 31 ≤ w.toNat) := by
  rw [BitVec.getLsbD, Nat.testBit_eq_decide_div_mod_eq]
  have := w.isLt
  congr 1
  ext
  omega

theorem Ctrl.eraOf_le (c : Ctrl) (w : Word) : c.eraOf w ≤ 256 := by
  have := c.era.isLt
  unfold Ctrl.eraOf
  split
  · split <;> omega
  · omega

theorem Ctrl.eraOf_pivot (c : Ctrl) (w : Word) (h : c.eraMode = true) :
    c.eraOf w = if 2 ^ 31 ≤ w.toNat then c.era.toNat else c.era.toNat + 1 := by
  simp only [Ctrl.eraOf, h, bit31_eq, if_true, decide_eq_true_eq]

theorem Ctrl.eraOf_fixed (c : Ctrl) (w : Word) (h : c.eraMode = false) : c.eraOf w = c.era.toNat := by
  simp [Ctrl.eraOf, h]

theorem Ctrl.inWindow_iff_window (c : Ctrl) (S : Nat) : c.inWindow S = true ↔ InEraWindow c S := by
  have hb : (BitVec.ofNat 32 (S % two32)).getLsbD 31 = decide (2 ^ 31 ≤ S % 2 ^ 32) := by
    rw [bit31_eq]
    simp [two32]
  unfold Ctrl.inWindow InEraWindow
  simp only [hb]
  unfold two32
  cases c.eraMode <;> simp

/-! ## Duration to fixed point: the value, or none -/

theorem timestampOf_some (c : Ctrl) (d : Duration) (h1 : d.nanos.toNat < 10 ^ 9)
    (h2 : ¬ NegativeD d) (h3 : InEraWindow c d.secs.toNat) :
    timestampOf c d
      = some (BitVec.ofNat 64 (d.secs.toNat % 2 ^ 32 * 2 ^ 32 + nsToFrac32 d.nanos.toNat)) := by
  rw [← Duration.valid_iff] at h1
  rw [← Duration.negative_iff] at h2
  rw [← Ctrl.inWindow_iff_window] at h3
  simp [timestampOf, h1, h2, h3, two32]

theorem timestampOf_none (c : Ctrl) (d : Duration)
    (h : 10 ^ 9 ≤ d.nanos.toNat ∨ NegativeD d ∨ ¬ InEraWindow c d.secs.toNat) :
    timestampOf c d = none := by
  rw [← Duration.negative_iff, ← Ctrl.inWindow_iff_window, ← Nat.not_lt, ← Duration.valid_iff] at h
  unfold timestampOf
  rcases h with h | h | h <;> simp [h]

theorem unsignedOf_some (d : Duration) (h1 : d.nanos.toNat < 10 ^ 9) (h2 : ¬ NegativeD d)
    (h3 : d.secs.toNat < 2 ^ 32) :
    unsignedOf d = some (BitVec.ofNat 64 (d.secs.toNat * 2 ^ 32 + nsToFrac32 d.nanos.toNat)) := by
  rw [← Duration.valid_iff] at h1
  rw [← Duration.negative_iff] at h2
  have h4 : ¬ 2 ^ 32 ≤ d.secs.toNat := Nat.not_le.2 h3
  rw [unsignedOf, two32_eq, if_neg (by simp [h1]), if_neg h2, if_neg h4]

theorem unsignedOf_none (d : Duration)
    (h : 10 ^ 9 ≤ d.nanos.toNat ∨ NegativeD d ∨ 2 ^ 32 ≤ d.secs.toNat) : unsignedOf d = none := by
  rw [← Duration.negative_iff, ← Nat.not_lt, ← Duration.valid_iff] at h
  rw [unsignedOf, two32_eq]
  rcases h with h | h | h
  · simp [h]
  · simp [h]
  · rw [if_pos h]
    simp

theorem signedPattern_some (w half : Nat) (neg : Bool) (m : Nat) (h1 : neg = false → m ≤ half - 1)
    (h2 : neg = true → m ≤ half) :
    signedPattern w half neg m = some (BitVec.ofInt w (if neg then -(m : Int) else m)) := by
  unfold signedPattern
  cases neg <;> simp_all

theorem signedPattern_none (w half : Nat) (neg : Bool) (m : Nat)
    (h : (neg = false ∧ half - 1 < m) ∨ (neg = true ∧ half < m)) : signedPattern w half neg m = none := by
  unfold signedPattern
  rcases h with ⟨rfl, h⟩ | ⟨rfl, h⟩ <;> simp [h]

theorem signedOf_some (d : Duration) (m : Nat) (hm : m = d.secs.toNat * 2 ^ 32 + nsToFrac32 d.nanos.toNat)
    (h : d.nanos.toNat < 10 ^ 9) (h1 : d.neg = false → m ≤ 2 ^ 63 - 1) (h2 : d.neg = true → m ≤ 2 ^ 63) :
    signedOf d = some (BitVec.ofInt 64 (if d.neg then -(m : Int) else m)) := by
  subst hm
  have hv : ¬ (!d.valid) = true := by rw [(Duration.valid_iff d).2 h]; decide
  rw [signedOf, if_neg hv, two32_eq]
  exact signedPattern_some 64 (2 ^ 63) _ _ h1 h2

theorem signedOf_none (d : Duration) (m : Nat) (hm : m = d.secs.toNat * 2 ^ 32 + nsToFrac32 d.nanos.toNat)
    (h : 10 ^ 9 ≤ d.nanos.toNat ∨ (d.neg = false ∧ 2 ^ 63 - 1 < m) ∨ (d.neg = true ∧ 2 ^ 63 < m)) :
    signedOf d = none := by
  subst hm
  rw [signedOf, two32_eq]
  split
  · rfl
  · next hv =>
    have hv : d.nanos.toNat < 10 ^ 9 := (Duration.valid_iff d).1 (by simpa using hv)
    rw [signedPattern_none 64 (2 ^ 63) _ _ (h.resolve_left (by omega))]

theorem shortOf_some (d : Duration) (m : Nat) (hm : m = d.secs.toNat * 2 ^ 16 + nsToFrac16 d.nanos.toNat)
    (h : d.nanos.toNat < 10 ^ 9) (h1 : d.neg = false → m ≤ 2 ^ 31 - 1) (h2 : d.neg = true → m ≤ 2 ^ 31) :
    shortOf d = some ((BitVec.ofInt 32 (if d.neg then -(m : Int) else m)).setWidth 64) := by
  subst hm
  have hv : ¬ (!d.valid) = true := by rw [(Duration.valid_iff d).2 h]; decide
  rw [shortOf, if_neg hv, two16_eq, signedPattern_some 32 (2 ^ 31) _ _ h1 h2]
  rfl

theorem shortOf_none (d : Duration) (m : Nat) (hm : m = d.secs.toNat * 2 ^ 16 + nsToFrac16 d.nanos.toNat)
    (h : 10 ^ 9 ≤ d.nanos.toNat ∨ (d.neg = false ∧ 2 ^ 31 - 1 < m) ∨ (d.neg = true ∧ 2 ^ 31 < m)) :
    shortOf d = none := by
  subst hm
  rw [shortOf, two16_eq]
  split
  · rfl
  · next hv =>
    have hv : d.nanos.toNat < 10 ^ 9 := (Duration.valid_iff d).1 (by simpa using hv)
    rw [signedPattern_none 32 (2 ^ 31) _ _ (h.resolve_left (by omega))]
    rfl

/-! ## What a conversion that answers a value says of its duration -/

theorem timestampOf_cases {c : Ctrl} {d : Duration} {v : DWord} (h : timestampOf c d = some v) :
    d.nanos.toNat < 10 ^ 9 ∧ ¬ NegativeD d ∧ InEraWindow c d.secs.toNat
      ∧ v.toNat = d.secs.toNat % 2 ^ 32 * 2 ^ 32 + nsToFrac32 d.nanos.toNat := by
  have h' : ¬ (10 ^ 9 ≤ d.nanos.toNat ∨ NegativeD d ∨ ¬ InEraWindow c d.secs.toNat) := by
    intro h'
    rw [timestampOf_none c d h'] at h
    cases h
  rw [not_or, not_or, Nat.not_le, not_not] at h'
  obtain ⟨h1, h2, h3⟩ := h'
  rw [timestampOf_some c d h1 h2 h3] at h
  have hv := Option.some.inj h
  subst hv
  have := nsToFrac32_lt h1
  refine ⟨h1, h2, h3, ?_⟩
  rw [BitVec.toNat_ofNat]
  omega

theorem unsignedOf_cases {d : Duration} {v : DWord} (h : unsignedOf d = some v) :
    d.nanos.toNat < 10 ^ 9 ∧ ¬ NegativeD d ∧ d.secs.toNat < 2 ^ 32
      ∧ v.toNat = d.secs.toNat * 2 ^ 32 + nsToFrac32 d.nanos.toNat := by
  have h' : ¬ (10 ^ 9 ≤ d.nanos.toNat ∨ NegativeD d ∨ 2 ^ 32 ≤ d.secs.toNat) := by
    intro h'
    rw [unsignedOf_none d h'] at h
    cases h
  rw [not_or, not_or, Nat.not_le, Nat.not_le] at h'
  obtain ⟨h1, h2, h3⟩ := h'
  rw [unsignedOf_some d h1 h2 h3] at h
  have hv := Option.some.inj h
  subst hv
  have := nsToFrac32_lt h1
  refine ⟨h1, h2, h3, ?_⟩
  rw [BitVec.toNat_ofNat]
  omega

/-- A signed pattern of 64 bits within its range reads back as the value. -/
theorem toInt_signed64 (neg : Bool) (m : Nat) (h1 : neg = false → m ≤ 2 ^ 63 - 1)
    (h2 : neg = true → m ≤ 2 ^ 63) :
    (BitVec.ofInt 64 (if neg then -(m : Int) else m)).toInt = if neg then -(m : Int) else m := by
  apply BitVec.toInt_ofInt_eq_self
  · decide
  · split
    · next hn => have := h2 hn; omega
    · next hn => have := h1 (by simpa using hn); omega
  · split
    · next hn => have := h2 hn; omega
    · next hn => have := h1 (by simpa using hn); omega

/-- A signed pattern of 32 bits within its range reads back as the value. -/
theorem toInt_signed32 (neg : Bool) (m : Nat) (h1 : neg = false → m ≤ 2 ^ 31 - 1)
    (h2 : neg = true → m ≤ 2 ^ 31) :
    (BitVec.ofInt 32 (if neg then -(m : Int) else m)).toInt = if neg then -(m : Int) else m := by
  apply BitVec.toInt_ofInt_eq_self
  · decide
  · split
    · next hn => have := h2 hn; omega
    · next hn => have := h1 (by simpa using hn); omega
  · split
    · next hn => have := h2 hn; omega
    · next hn => have := h1 (by simpa using hn); omega

theorem signedOf_cases {d : Duration} {v : DWord} (h : signedOf d = some v) :
    d.nanos.toNat < 10 ^ 9
      ∧ v.toInt = (if d.neg then -1 else 1)
          * ((d.secs.toNat * 2 ^ 32 + nsToFrac32 d.nanos.toNat : Nat) : Int) := by
  generalize hm : d.secs.toNat * 2 ^ 32 + nsToFrac32 d.nanos.toNat = m
  have h' : ¬ (10 ^ 9 ≤ d.nanos.toNat ∨ (d.neg = false ∧ 2 ^ 63 - 1 < m)
      ∨ (d.neg = true ∧ 2 ^ 63 < m)) := by
    intro h'
    rw [signedOf_none d m hm.symm h'] at h
    cases h
  rw [not_or, not_or, not_and, not_and, Nat.not_le, Nat.not_lt, Nat.not_lt] at h'
  obtain ⟨h1, h2, h3⟩ := h'
  rw [signedOf_some d m hm.symm h1 h2 h3] at h
  have hv := Option.some.inj h
  subst hv
  refine ⟨h1, ?_⟩
  rw [toInt_signed64 _ _ h2 h3]
  split <;> omega

theorem shortOf_cases {d : Duration} {v : DWord} (h : shortOf d = some v) :
    d.nanos.toNat < 10 ^ 9 ∧ ∃ p : Word, v = p.setWidth 64
      ∧ p.toInt = (if d.neg then -1 else 1)
          * ((d.secs.toNat * 2 ^ 16 + nsToFrac16 d.nanos.toNat : Nat) : Int) := by
  generalize hm : d.secs.toNat * 2 ^ 16 + nsToFrac16 d.nanos.toNat = m
  have h' : ¬ (10 ^ 9 ≤ d.nanos.toNat ∨ (d.neg = false ∧ 2 ^ 31 - 1 < m)
      ∨ (d.neg = true ∧ 2 ^ 31 < m)) := by
    intro h'
    rw [shortOf_none d m hm.symm h'] at h
    cases h
  rw [not_or, not_or, not_and, not_and, Nat.not_le, Nat.not_lt, Nat.not_lt] at h'
  obtain ⟨h1, h2, h3⟩ := h'
  rw [shortOf_some d m hm.symm h1 h2 h3] at h
  refine ⟨h1, _, (Option.some.inj h).symm, ?_⟩
  rw [toInt_signed32 _ _ h2 h3]
  split <;> omega

/-- A conversion that ends with OK has written its value. -/
theorem finishConversion_ok {s t : State} {rd : Reg} {o : Option DWord}
    (h : s.finishConversion rd o = .next t) (he : t.block.status.err = .ok) :
    ∃ v, o = some v ∧ t = (s.writeX rd v).endCommand .ok false false := by
  cases o with
  | none =>
    cases h
    cases he
  | some v =>
    cases h
    exact ⟨v, rfl, rfl⟩

/-! ## The durations that fixed-point values give -/

theorem durationOfTimestamp_fields (c : Ctrl) (v : DWord) :
    (durationOfTimestamp c v).neg = false
      ∧ (durationOfTimestamp c v).secs.toNat = c.eraOf (hiHalf v) * 2 ^ 32 + v.toNat / 2 ^ 32
      ∧ (durationOfTimestamp c v).nanos.toNat = frac32ToNs (v.toNat % 2 ^ 32) := by
  have := v.isLt
  have := c.eraOf_le (hiHalf v)
  have h := frac32ToNs_lt (Nat.mod_lt v.toNat (show 0 < 2 ^ 32 by decide))
  unfold durationOfTimestamp
  rw [toNat_hiHalf, toNat_loHalf, two32_eq, mkDuration_secs _ _ (by omega),
    mkDuration_nanos _ _ (by omega)]
  exact ⟨rfl, rfl, rfl⟩

theorem durationOfUnsigned_fields (v : DWord) :
    (durationOfUnsigned v).neg = false
      ∧ (durationOfUnsigned v).secs.toNat = v.toNat / 2 ^ 32
      ∧ (durationOfUnsigned v).nanos.toNat = frac32ToNs (v.toNat % 2 ^ 32) := by
  have := v.isLt
  have h := frac32ToNs_lt (Nat.mod_lt v.toNat (show 0 < 2 ^ 32 by decide))
  unfold durationOfUnsigned
  rw [toNat_hiHalf, toNat_loHalf, mkDuration_secs _ _ (by omega), mkDuration_nanos _ _ (by omega)]
  exact ⟨rfl, rfl, rfl⟩

theorem durationOfSigned_fields (v : DWord) :
    (durationOfSigned v).secs.toNat = v.toInt.natAbs / 2 ^ 32
      ∧ (durationOfSigned v).nanos.toNat = frac32ToNs (v.toInt.natAbs % 2 ^ 32)
      ∧ ((durationOfSigned v).neg = true ↔ v.toInt < 0
          ∧ (v.toInt.natAbs / 2 ^ 32 ≠ 0 ∨ frac32ToNs (v.toInt.natAbs % 2 ^ 32) ≠ 0)) := by
  have := natAbs_toInt64_le v
  have h := frac32ToNs_lt (Nat.mod_lt v.toInt.natAbs (show 0 < 2 ^ 32 by decide))
  unfold durationOfSigned
  simp only
  rw [two32_eq, mkDuration_secs _ _ (by omega), mkDuration_nanos _ _ (by omega), mkDuration_neg,
    decide_eq_true_eq]
  exact ⟨rfl, rfl, Iff.rfl⟩

theorem durationOfShort_fields (v : DWord) :
    (durationOfShort v).secs.toNat = (loHalf v).toInt.natAbs / 2 ^ 16
      ∧ (durationOfShort v).nanos.toNat = frac16ToNs ((loHalf v).toInt.natAbs % 2 ^ 16)
      ∧ ((durationOfShort v).neg = true ↔ (loHalf v).toInt < 0) := by
  have := natAbs_toInt32_le (loHalf v)
  have h := frac16ToNs_lt (Nat.mod_lt (loHalf v).toInt.natAbs (show 0 < 2 ^ 16 by decide))
  have hz : frac16ToNs ((loHalf v).toInt.natAbs % 2 ^ 16) = 0 → (loHalf v).toInt.natAbs % 2 ^ 16 = 0 := by
    unfold frac16ToNs two16 Config.nanosPerSecond
    omega
  unfold durationOfShort
  simp only
  rw [two16_eq, mkDuration_secs _ _ (by omega), mkDuration_nanos _ _ (by omega), mkDuration_neg,
    decide_eq_true_eq]
  exact ⟨rfl, rfl, fun h => h.1, fun h => ⟨h, by omega⟩⟩

/-! ## Frames of the shapes -/

theorem finishD_frame (s : State) (d : Duration) :
    Ends .ok false false s ((s.setD d).endCommand .ok false false)
      ∧ SameButD s ((s.setD d).endCommand .ok false false) :=
  ⟨⟨rfl, rfl, rfl, rfl⟩, ⟨rfl, rfl, rfl⟩, ⟨rfl, rfl⟩, fun _ => rfl, rfl, fun _ => rfl⟩

theorem finishX_frame (s : State) (rd : Reg) (v : DWord) (n : Bool) :
    XWritten rd v s ((s.writeX rd v).endCommand .ok false n)
      ∧ Ends .ok false n s ((s.writeX rd v).endCommand .ok false n)
      ∧ SameButRegs s ((s.writeX rd v).endCommand .ok false n) :=
  ⟨State.writeX_written s rd v, ⟨rfl, rfl, rfl, rfl⟩, ⟨rfl, rfl, rfl⟩, ⟨rfl, rfl⟩, rfl, rfl, fun _ => rfl⟩

theorem endCommand_frame (s : State) (c : Code) (u n : Bool) :
    Ends c u n s (s.endCommand c u n) ∧ SameButStatus s (s.endCommand c u n) :=
  ⟨⟨rfl, rfl, rfl, rfl⟩, ⟨⟨rfl, rfl, rfl⟩, ⟨rfl, rfl⟩, rfl, rfl, fun _ => rfl⟩, fun _ => rfl⟩

/-! ## The mode DEC accepts, and the latch -/

theorem modeAccepted_iff (b : Byte) :
    modeAccepted (headerMode b) = true ↔ b.toNat % 8 = 4 ∨ b.toNat % 8 = 2 := by
  rw [← toNat_headerMode]
  simp [modeAccepted, ← BitVec.toNat_inj]

theorem latchedReply_inWidth (m : Memory) : (latchedReply m).InWidth := by
  have h1 := (headerLI (m.read 0)).isLt
  have h2 := (headerVN (m.read 0)).isLt
  have h3 := (headerMode (m.read 0)).isLt
  have h4 := (m.read 1).isLt
  have h5 := (m.read 2).isLt
  have h6 := (m.read32 4).isLt
  have h7 := (m.read32 8).isLt
  have h8 := (m.read32 12).isLt
  have h9 := (m.read 3).toInt_lt
  have h10 := (m.read 3).le_toInt
  unfold ReplyRegs.InWidth latchedReply
  simp only [BitVec.toNat_setWidth]
  rw [BitVec.toInt_signExtend_of_le (by decide)]
  refine ⟨by omega, by omega, by omega, by omega, by omega, ⟨by omega, by omega⟩, by omega, by omega,
    by omega⟩

/-! ## Packet values as numbers (00_scope.md R8) -/

theorem State.bigEndian_four (s : State) (a : Nat) :
    s.bigEndian a 4 = (Memory.read32 s.block.pkt a).toNat := by
  rw [toNat_read32]
  simp only [State.bigEndian, State.pktByte]
  simp
  omega

theorem State.bigEndian_eight (s : State) (a : Nat) :
    s.bigEndian a 8 = (Memory.read64 s.block.pkt a).toNat := by
  rw [toNat_read64, toNat_read32, toNat_read32]
  simp only [State.bigEndian, State.pktByte]
  simp [Nat.add_assoc]
  omega

end Sys2Proof.Machine
end

