-- ==== Sys2Proof/Laws/Arith.lean ====
section
/-! SUPPORT. The offset/delay unit, said once: what the signed difference is, and why no result of
OFFSET or DELAY overflows (43_arith.md R220, R225, R226). -/

namespace Sys2Proof.Machine

theorem sdiff_bounds (a b : DWord) : -2 ^ 63 ≤ sdiff a b ∧ sdiff a b < 2 ^ 63 := by
  have h1 := (a - b).toInt_lt
  have h2 := (a - b).le_toInt
  unfold sdiff
  omega

/-- The difference is congruent to the difference of the unsigned readings modulo 2^64. -/
theorem sdiff_congr (a b : DWord) : ∃ k : Int, sdiff a b = (a.toNat : Int) - b.toNat + k * 2 ^ 64 := by
  unfold sdiff
  have ha := a.isLt
  have hb := b.isLt
  rw [BitVec.toInt_eq_toNat_cond, BitVec.toNat_sub]
  split
  · refine ⟨if a.toNat < b.toNat then 1 else 0, ?_⟩
    split <;> omega
  · refine ⟨if a.toNat < b.toNat then 0 else -1, ?_⟩
    split <;> omega

theorem toNat_ofInt_congr (A : Int) : ∃ k : Int, ((BitVec.ofInt 64 A).toNat : Int) = A + k * 2 ^ 64 := by
  rw [BitVec.toNat_ofInt]
  exact ⟨-(A / 2 ^ 64), by omega⟩

/-- Era independence: a difference that fits is the difference. -/
theorem sdiff_ofInt (A B : Int) (h1 : -2 ^ 63 ≤ A - B) (h2 : A - B < 2 ^ 63) :
    sdiff (BitVec.ofInt 64 A) (BitVec.ofInt 64 B) = A - B := by
  obtain ⟨k, hk⟩ := sdiff_congr (BitVec.ofInt 64 A) (BitVec.ofInt 64 B)
  obtain ⟨ka, ha⟩ := toNat_ofInt_congr A
  obtain ⟨kb, hb⟩ := toNat_ofInt_congr B
  have := sdiff_bounds (BitVec.ofInt 64 A) (BitVec.ofInt 64 B)
  omega

/-- The offset fits 64 bits, whatever the timestamps. -/
theorem offset_fits (t1 t2 t3 t4 : DWord) :
    (BitVec.ofInt 64 (offsetSum t1 t2 t3 t4 / 2)).toInt = offsetSum t1 t2 t3 t4 / 2 := by
  have h1 := sdiff_bounds t2 t1
  have h2 := sdiff_bounds t3 t4
  unfold offsetSum
  rw [BitVec.toInt_ofInt_eq_self] <;> omega

/-- A delay that is not negative fits 64 bits. -/
theorem delay_fits (t1 t2 t3 t4 : DWord) (h : 0 ≤ exactDelay t1 t2 t3 t4) :
    ((BitVec.ofInt 64 (exactDelay t1 t2 t3 t4)).toNat : Int) = exactDelay t1 t2 t3 t4 := by
  have h1 := sdiff_bounds t4 t1
  have h2 := sdiff_bounds t3 t2
  unfold exactDelay at h ⊢
  rw [BitVec.toNat_ofInt]
  omega

/-! ## The commands, in the form claims about them use -/

theorem exec_tsub (rd a b : Reg) (s : State) :
    exec (.tsub rd a b) s = .next ((s.writeX rd (s.readX a - s.readX b)).endCommand .ok false false) := rfl

theorem exec_offset (rd a b c d : Reg) (s : State) :
    exec (.offset rd a b c d) s
      = .next ((s.writeX rd (BitVec.ofInt 64
          (offsetSum (s.readX a) (s.readX b) (s.readX c) (s.readX d) / 2))).endCommand .ok false false) := rfl

theorem exec_delay (rd a b c d : Reg) (s : State) :
    exec (.delay rd a b c d) s
      = s.finishDelay rd (exactDelay (s.readX a) (s.readX b) (s.readX c) (s.readX d)) := rfl

/-- A written register reads the same in any two states it is written in. -/
theorem readX_writeX_agree (s u : State) (rd : Reg) (v : DWord) :
    (s.writeX rd v).readX rd = (u.writeX rd v).readX rd := by
  by_cases h : rd = .x0
  · rw [(State.writeX_written s rd v).2.1 h, (State.writeX_written u rd v).2.1 h]
  · rw [(State.writeX_written s rd v).1 h, (State.writeX_written u rd v).1 h]

end Sys2Proof.Machine
end

