-- ==== Sys2Proof/Laws/PerInstr.lean ====
section
/-! SUPPORT. The families of statements made instruction by instruction: an encoded command carries its own
opcode, and matches its own row of 30_encoding.md R105. -/

/-! ## EncodesOwnOpcode: bits 7:0 of the word of a command are its opcode (30_encoding.md R104) -/

def Sys2Proof.Laws.EncodesOwnOpcode.Statement (i : Sys2Proof.Instr) : Prop :=
  Sys2Proof.fieldOP (Sys2Proof.encode i) = i.opcode.code

/-! ## MatchesOwnRow: the word of a command matches its row (30_encoding.md R105) -/

def Sys2Proof.Laws.MatchesOwnRow.Statement (i : Sys2Proof.Instr) : Prop :=
  i.opcode.selects (Sys2Proof.encode i) = true

namespace Sys2Proof.Laws.EncodesOwnOpcode

theorem nop : Statement Instr.nop := fieldOP_packR _ _ _ _ _ _ _

theorem enc (s : Reg) (vn mode : BitVec 3) : Statement (Instr.enc s vn mode) := fieldOP_packR _ _ _ _ _ _ _

theorem dec : Statement Instr.dec := fieldOP_packR _ _ _ _ _ _ _

theorem setts (s : Reg) (k : Slot) : Statement (Instr.setts s k) := fieldOP_packR _ _ _ _ _ _ _

theorem getts (d : Reg) (k : Slot) : Statement (Instr.getts d k) := fieldOP_packR _ _ _ _ _ _ _

theorem rpget (d : Reg) (sel : BitVec 4) : Statement (Instr.rpget d sel) := fieldOP_packR _ _ _ _ _ _ _

theorem ts2d (s : Reg) : Statement (Instr.ts2d s) := fieldOP_packR _ _ _ _ _ _ _

theorem u2d (s : Reg) : Statement (Instr.u2d s) := fieldOP_packR _ _ _ _ _ _ _

theorem s2d (s : Reg) : Statement (Instr.s2d s) := fieldOP_packR _ _ _ _ _ _ _

theorem h2d (s : Reg) : Statement (Instr.h2d s) := fieldOP_packR _ _ _ _ _ _ _

theorem d2ts (d : Reg) : Statement (Instr.d2ts d) := fieldOP_packR _ _ _ _ _ _ _

theorem d2u (d : Reg) : Statement (Instr.d2u d) := fieldOP_packR _ _ _ _ _ _ _

theorem d2s (d : Reg) : Statement (Instr.d2s d) := fieldOP_packR _ _ _ _ _ _ _

theorem d2h (d : Reg) : Statement (Instr.d2h d) := fieldOP_packR _ _ _ _ _ _ _

theorem tsub (d a b : Reg) : Statement (Instr.tsub d a b) := fieldOP_packR _ _ _ _ _ _ _

theorem offset (d t1 t2 t3 t4 : Reg) : Statement (Instr.offset d t1 t2 t3 t4) := fieldOP_packR _ _ _ _ _ _ _

theorem delay (d t1 t2 t3 t4 : Reg) : Statement (Instr.delay d t1 t2 t3 t4) := fieldOP_packR _ _ _ _ _ _ _

end Sys2Proof.Laws.EncodesOwnOpcode

namespace Sys2Proof.Laws.MatchesOwnRow

theorem nop : Statement Instr.nop :=
  selects_packR Opcode.nop _ 0x1ff#9 _ _ _ _ _ 7#3 7#3 7#3 7#3 7#3 rfl
    rfl rfl rfl rfl rfl rfl

theorem enc (s : Reg) (vn mode : BitVec 3) : Statement (Instr.enc s vn mode) :=
  selects_packR Opcode.enc _ 0x1c0#9 _ _ _ _ _ 7#3 7#3 7#3 0#3 7#3 rfl
    (by revert vn mode; decide) rfl rfl rfl BitVec.and_zero rfl

theorem dec : Statement Instr.dec :=
  selects_packR Opcode.dec _ 0x1ff#9 _ _ _ _ _ 7#3 7#3 7#3 7#3 7#3 rfl
    rfl rfl rfl rfl rfl rfl

theorem setts (s : Reg) (k : Slot) : Statement (Instr.setts s k) :=
  selects_packR Opcode.setts _ 0x1fc#9 _ _ _ _ _ 7#3 7#3 7#3 0#3 7#3 rfl
    (by cases k <;> rfl) rfl rfl rfl BitVec.and_zero rfl

theorem getts (d : Reg) (k : Slot) : Statement (Instr.getts d k) :=
  selects_packR Opcode.getts _ 0x1fc#9 _ _ _ _ _ 7#3 7#3 7#3 7#3 0#3 rfl
    (by cases k <;> rfl) rfl rfl rfl rfl BitVec.and_zero

theorem rpget (d : Reg) (sel : BitVec 4) : Statement (Instr.rpget d sel) :=
  selects_packR Opcode.rpget _ 0x1f0#9 _ _ _ _ _ 7#3 7#3 7#3 7#3 0#3 rfl
    (by revert sel; decide) rfl rfl rfl rfl BitVec.and_zero

theorem ts2d (s : Reg) : Statement (Instr.ts2d s) :=
  selects_packR Opcode.ts2d _ 0x1ff#9 _ _ _ _ _ 7#3 7#3 7#3 0#3 7#3 rfl
    rfl rfl rfl rfl BitVec.and_zero rfl

theorem u2d (s : Reg) : Statement (Instr.u2d s) :=
  selects_packR Opcode.u2d _ 0x1ff#9 _ _ _ _ _ 7#3 7#3 7#3 0#3 7#3 rfl
    rfl rfl rfl rfl BitVec.and_zero rfl

theorem s2d (s : Reg) : Statement (Instr.s2d s) :=
  selects_packR Opcode.s2d _ 0x1ff#9 _ _ _ _ _ 7#3 7#3 7#3 0#3 7#3 rfl
    rfl rfl rfl rfl BitVec.and_zero rfl

theorem h2d (s : Reg) : Statement (Instr.h2d s) :=
  selects_packR Opcode.h2d _ 0x1ff#9 _ _ _ _ _ 7#3 7#3 7#3 0#3 7#3 rfl
    rfl rfl rfl rfl BitVec.and_zero rfl

theorem d2ts (d : Reg) : Statement (Instr.d2ts d) :=
  selects_packR Opcode.d2ts _ 0x1ff#9 _ _ _ _ _ 7#3 7#3 7#3 7#3 0#3 rfl
    rfl rfl rfl rfl rfl BitVec.and_zero

theorem d2u (d : Reg) : Statement (Instr.d2u d) :=
  selects_packR Opcode.d2u _ 0x1ff#9 _ _ _ _ _ 7#3 7#3 7#3 7#3 0#3 rfl
    rfl rfl rfl rfl rfl BitVec.and_zero

theorem d2s (d : Reg) : Statement (Instr.d2s d) :=
  selects_packR Opcode.d2s _ 0x1ff#9 _ _ _ _ _ 7#3 7#3 7#3 7#3 0#3 rfl
    rfl rfl rfl rfl rfl BitVec.and_zero

theorem d2h (d : Reg) : Statement (Instr.d2h d) :=
  selects_packR Opcode.d2h _ 0x1ff#9 _ _ _ _ _ 7#3 7#3 7#3 7#3 0#3 rfl
    rfl rfl rfl rfl rfl BitVec.and_zero

theorem tsub (d a b : Reg) : Statement (Instr.tsub d a b) :=
  selects_packR Opcode.tsub _ 0x1ff#9 _ _ _ _ _ 7#3 7#3 0#3 0#3 0#3 rfl
    rfl rfl rfl BitVec.and_zero BitVec.and_zero BitVec.and_zero

theorem offset (d t1 t2 t3 t4 : Reg) : Statement (Instr.offset d t1 t2 t3 t4) :=
  selects_packR Opcode.offset _ 0x1ff#9 _ _ _ _ _ 0#3 0#3 0#3 0#3 0#3 rfl
    rfl BitVec.and_zero BitVec.and_zero BitVec.and_zero BitVec.and_zero BitVec.and_zero

theorem delay (d t1 t2 t3 t4 : Reg) : Statement (Instr.delay d t1 t2 t3 t4) :=
  selects_packR Opcode.delay _ 0x1ff#9 _ _ _ _ _ 0#3 0#3 0#3 0#3 0#3 rfl
    rfl BitVec.and_zero BitVec.and_zero BitVec.and_zero BitVec.and_zero BitVec.and_zero

end Sys2Proof.Laws.MatchesOwnRow
end

