-- ==== Sys2Proof/Tests/Slice0.lean ====
section
/-! SUPPORT. The model's own tests: ill-formed terms, words written out from the spec's encodings, one
step on small states with the results of 95_test_vectors.md, and a witness for the hypotheses of every
obligation that has some. The name in a comment is the row of 95_test_vectors.md a result comes from. -/

namespace Sys2Proof.Tests

open Sys2Proof Sys2Proof.Machine

/-! ## Small states and what tests look at -/

/-- A state with the given block, its window at 0x1000. -/
def atBlock (b : Block) : State := { State.reset with block := b, base := 0x1000 }

/-- Reset with X1 to X4 given. -/
def withX (v1 v2 v3 v4 : DWord) : State :=
  atBlock { Block.reset with x := { Block.reset.x with x1 := v1, x2 := v2, x3 := v3, x4 := v4 } }

/-- Reset with X1 given. -/
def withX1 (v : DWord) : State := withX v 0 0 0

/-- Reset with CTRL and X1 given. -/
def withCtrlX1 (c : Word) (v : DWord) : State := (withX1 v).setCtrl (ctrlOfWord c)

/-- Reset with CTRL and D given, and X2 not 0. -/
def withD (c : Word) (neg : Bool) (secs : DWord) (nanos : Word) : State :=
  ((withX 0 0xAAAAAAAAAAAAAAAA#64 0 0).setD ⟨neg, nanos, secs⟩).setCtrl (ctrlOfWord c)

/-- The packet of the DEC rows Q of 95_test_vectors.md, with PKT0 given. -/
def replyPacket (pkt0 : Word) : Memory :=
  Memory.write32 (Memory.write32 (Memory.write32 Memory.zero 0 pkt0) 12 0x44454E59#32) 32 0xE5F24B81#32

/-- The start of a DEC row Q. -/
def withReply (c rxLen pkt0 : Word) : State :=
  ((atBlock { Block.reset with pkt := replyPacket pkt0 }).setRxLen rxLen).setCtrl (ctrlOfWord c)

/-- A state with one host access waiting. -/
def withEvent (e : HostEvent) : State := { atBlock Block.reset with pending := [e] }

/-- A legal bus write waiting at an offset. -/
def wr (off : Nat) (v : Word) : State := withEvent (.write 32 (0x1000 + off) v)

/-- What a result says of a state, where it is a next state. -/
def see {α : Type} (f : State → α) : Result → Option α
  | .next t => some (f t)
  | .fault _ => none
  | .refused _ => none

/-- STATUS as the bus reads it. -/
def statusOf (t : State) : Word := t.block.readWord .status

/-- The fault of a result. -/
def faultOf : Result → Option Fault
  | .next _ => none
  | .fault f => some f
  | .refused _ => none

/-! ## WellFormed: RPGET names no reply register with SEL 13 to 15 (30_encoding.md R106) -/

theorem test_rpget_sel13_refused : Instr.wellFormed (.rpget .x1 13#4) = false := by decide

theorem test_rpget_sel14_refused : Instr.wellFormed (.rpget .x0 14#4) = false := by decide

theorem test_rpget_sel15_refused : Instr.wellFormed (.rpget .x7 15#4) = false := by decide

theorem test_rpget_sel12_accepted : Instr.wellFormed (.rpget .x7 12#4) = true := by decide

/-! ## Decode: words written out field by field, IMM RS4 RS3 RS2 RS1 RD OP (30_encoding.md R101 to R105) -/

theorem test_decode_nop :
    decode 0b000000000_000_000_000_000_000_00000000#32 = .command .nop := by decide

theorem test_decode_enc :
    decode 0b000110101_000_000_000_110_000_00010000#32 = .command (.enc .x6 5#3 6#3) := by decide

theorem test_decode_dec :
    decode 0b000000000_000_000_000_000_000_00010001#32 = .command .dec := by decide

theorem test_decode_setts :
    decode 0b000000010_000_000_000_101_000_00010010#32 = .command (.setts .x5 .rx) := by decide

theorem test_decode_getts :
    decode 0b000000001_000_000_000_000_110_00010011#32 = .command (.getts .x6 .org) := by decide

theorem test_decode_rpget :
    decode 0b000001011_000_000_000_000_011_00010100#32 = .command (.rpget .x3 11#4) := by decide

theorem test_decode_ts2d :
    decode 0b000000000_000_000_000_101_000_00100000#32 = .command (.ts2d .x5) := by decide

theorem test_decode_u2d :
    decode 0b000000000_000_000_000_110_000_00100001#32 = .command (.u2d .x6) := by decide

theorem test_decode_s2d :
    decode 0b000000000_000_000_000_011_000_00100010#32 = .command (.s2d .x3) := by decide

theorem test_decode_h2d :
    decode 0b000000000_000_000_000_111_000_00100011#32 = .command (.h2d .x7) := by decide

theorem test_decode_d2ts :
    decode 0b000000000_000_000_000_000_101_00100100#32 = .command (.d2ts .x5) := by decide

theorem test_decode_d2u :
    decode 0b000000000_000_000_000_000_110_00100101#32 = .command (.d2u .x6) := by decide

theorem test_decode_d2s :
    decode 0b000000000_000_000_000_000_011_00100110#32 = .command (.d2s .x3) := by decide

theorem test_decode_d2h :
    decode 0b000000000_000_000_000_000_001_00100111#32 = .command (.d2h .x1) := by decide

theorem test_decode_tsub :
    decode 0b000000000_000_000_010_001_011_00110000#32 = .command (.tsub .x3 .x1 .x2) := by decide

theorem test_decode_offset :
    decode 0b000000000_100_011_010_001_101_00110001#32 = .command (.offset .x5 .x1 .x2 .x3 .x4) := by
  decide

theorem test_decode_delay :
    decode 0b000000000_111_110_101_100_011_00110010#32 = .command (.delay .x3 .x4 .x5 .x6 .x7) := by
  decide

/-- C-2, C-5 to C-10, C-13 to C-15: illegal words and why. -/
theorem test_decode_illegal :
    [0x00000001#32, 0x00000100#32, 0x00000111#32, 0x20000010#32, 0x00028B30#32, 0x00800031#32,
      0x06800314#32, 0x00000015#32, 0x00000028#32, 0x00000033#32].map decode
    = [.illegal .unassignedOpcode, .illegal .nonzeroUnusedField, .illegal .nonzeroUnusedField,
      .illegal .nonzeroUnusedField, .illegal .nonzeroUnusedField, .illegal .nonzeroUnusedField,
      .illegal .selectorOutOfRange, .illegal .unassignedOpcode, .illegal .unassignedOpcode,
      .illegal .unassignedOpcode] := by decide

/-- The words of 30_encoding.md and 95_test_vectors.md, from their assembler forms. -/
theorem test_encode :
    [encode (.enc .x1 4#3 3#3), encode (.setts .x1 .tx), encode (.getts .x2 .tx),
      encode (.rpget .x2 12#4), encode (.tsub .x3 .x2 .x1), encode (.offset .x5 .x1 .x2 .x3 .x4),
      encode (.offset .x1 .x1 .x2 .x1 .x2)]
    = [0x0E000810#32, 0x01800812#32, 0x01800213#32, 0x06000214#32, 0x00005330#32, 0x00468D31#32,
      0x00228931#32] := by decide

theorem test_decodeTableWord :
    decodeTableWord 32 0x0E000810 = some (.enc .x1 4#3 3#3) ∧ decodeTableWord 32 0x40 = none := by
  decide

/-- A placed word runs as the first command after reset. -/
theorem test_withFetchWord_runs :
    see (fun t => t.block.status.err) (step (State.reset.withFetchWord 32 0x00000011)) = some .malformed := by
  decide

/-! ## Packet marshaller -/

/-- C-1: NOP clears ERR and the warnings and keeps RPV. -/
theorem test_nop_status :
    see statusOf (exec .nop (atBlock { Block.reset with
      status := { err := .range, wUnsync := false, wNegdly := true, rpv := true } }))
      = some 0x00010000#32 := by decide

/-- P-1: ENC on a buffer of 0xFF bytes. -/
theorem test_enc_packet :
    see (fun t => (t.block.readWord (.pkt 0), t.block.readWord (.pkt 1), t.block.readWord (.pkt 9),
        t.block.readWord (.pkt 10), t.block.readWord (.pkt 11)))
      (exec (.enc .x1 4#3 3#3)
        ((withX1 0xE5F24B8080000000#64).setPkt ((List.range 48).map fun a => (a, 0xFF#8))))
      = some (0x23000000#32, 0#32, 0#32, 0xE5F24B80#32, 0x80000000#32) := by decide

/-- P-4: VN and Mode each take their own bits. -/
theorem test_enc_header :
    see (fun t => t.pktByte 0) (exec (.enc .x0 3#3 6#3) State.reset) = some 0x1E#8 := by decide

/-- Q-1, Q-4, Q-5, Q-9, Q-10, Q-11. -/
theorem test_dec_codes :
    [withReply 1 0 0x24020AEC, withReply 1 0xFFFFFFFF 0x23020AEC, withReply 1 48 0x23020AEC,
      withReply 1 48 0x27000AEC, withReply 1 48 0x24020AEC, withReply 1 48 0x22020AEC].map
      (fun s => see statusOf (exec .dec s))
    = [some 1#32, some 1#32, some 2#32, some 2#32, some 0x10000#32, some 0x10000#32] := by decide

/-- Q-13, Q-14, Q-15, Q-16. -/
theorem test_dec_checks :
    [withReply 1 48 0xE4000AEC, withReply 1 48 0xE4020AEC, withReply 0 48 0xE4020AEC,
      withReply 1 48 0x64020AEC].map (fun s => see statusOf (exec .dec s))
    = [some 0x10003#32, some 0x10004#32, some 0x10100#32, some 0x10000#32] := by decide

/-- After Q-10. -/
theorem test_dec_latch :
    see (fun t => [ReplyReg.vn, .mode, .stratum, .poll, .prec, .refid, .rxts, .txts].map t.block.rp.read)
      (exec .dec (withReply 1 48 0x24020AEC))
    = some [4#64, 4#64, 2#64, 0xA#64, 0xFFFFFFFFFFFFFFEC#64, 0x44454E59#64, 0xE5F24B8100000000#64,
        0#64] := by decide

/-- P-9, rx. -/
theorem test_setts_slot :
    see (fun t => (t.block.readWord (.pkt 7), t.block.readWord (.pkt 8), t.block.readWord (.pkt 9),
        t.block.readWord (.pkt 10)))
      (exec (.setts .x1 .rx) (withX1 0x0123456789ABCDEF#64))
      = some (0#32, 0x01234567#32, 0x89ABCDEF#32, 0#32) := by decide

/-- P-9, tx. -/
theorem test_getts_slot :
    see (fun t => t.readX .x2)
      (exec (.getts .x2 .tx)
        (atBlock { Block.reset with pkt := Memory.write64 Memory.zero 40 0x8000000000000001#64 }))
      = some 0x8000000000000001#64 := by decide

/-- Q-25 and L1-6: RPGET ignores RPV and selects by number. -/
theorem test_rpget_register :
    see (fun t => (t.readX .x7, statusOf t))
      (exec (.rpget .x7 8#4) (atBlock { Block.reset with
        rp := { Block.reset.rp with refid := 0x44454E59#64 } }))
      = some (0x44454E59#64, 0#32) := by decide

/-- Q-26: a write to X0 is discarded. -/
theorem test_rpget_x0 :
    see (fun t => t.block.x) (exec (.rpget .x0 4#4) (atBlock { Block.reset with
        rp := { Block.reset.rp with poll := 10#64 } })) = some Block.reset.x := by decide

/-! ## Timestamp encoder/decoder: fixed point to D -/

/-- T-1, T-3, T-4, T-5, T-6. -/
theorem test_ts2d_fixed :
    [withCtrlX1 1 0xE5F24B8080000000, withCtrlX1 1 4, withCtrlX1 1 5, withCtrlX1 1 0xFFFFFFFFFFFFFFFF,
      withCtrlX1 0x101 0x1000000000].map (fun s => see (fun t => t.block.d) (exec (.ts2d .x1) s))
    = [some ⟨false, 500000000, 3857861504⟩, some ⟨false, 0, 0⟩, some ⟨false, 1, 0⟩,
      some ⟨false, 999999999, 4294967295⟩, some ⟨false, 0, 4294967312⟩] := by decide

/-- T-7 to T-10. -/
theorem test_ts2d_pivot :
    [withCtrlX1 3 0x1000000000, withCtrlX1 3 0x8000000000000000, withCtrlX1 3 0x7FFFFFFFFFFFFFFF,
      withCtrlX1 0xFF03 0].map (fun s => see (fun t => t.block.d) (exec (.ts2d .x1) s))
    = [some ⟨false, 0, 4294967312⟩, some ⟨false, 0, 2147483648⟩, some ⟨false, 999999999, 6442450943⟩,
      some ⟨false, 0, 1099511627776⟩] := by decide

/-- U-1, U-2, U-3. -/
theorem test_u2d :
    [withX1 0x1999999A, withX1 0xFFFFFFFFFFFFFFFF, withCtrlX1 0x101 0x200000000].map
      (fun s => see (fun t => t.block.d) (exec (.u2d .x1) s))
    = [some ⟨false, 100000000, 0⟩, some ⟨false, 999999999, 4294967295⟩, some ⟨false, 0, 2⟩] := by decide

/-- S-1 to S-5. -/
theorem test_s2d :
    [withX1 0xFFFFFFFF80000000, withX1 0xFFFFFFFFFFFFFFFF, withX1 0xFFFFFFFFFFFFFFFB,
      withX1 0x8000000000000000, withX1 0x7FFFFFFFFFFFFFFF].map
      (fun s => see (fun t => t.block.d) (exec (.s2d .x1) s))
    = [some ⟨true, 500000000, 0⟩, some ⟨false, 0, 0⟩, some ⟨true, 1, 0⟩, some ⟨true, 0, 2147483648⟩,
      some ⟨false, 999999999, 2147483647⟩] := by decide

/-- H-2 to H-6. -/
theorem test_h2d :
    [withX1 0xFFFFFFFF00018000, withX1 0xFFFF8000, withX1 0xFFFFFFFF, withX1 0x80000000,
      withX1 0x7FFFFFFF].map (fun s => see (fun t => t.block.d) (exec (.h2d .x1) s))
    = [some ⟨false, 500000000, 1⟩, some ⟨true, 500000000, 0⟩, some ⟨true, 15258, 0⟩,
      some ⟨true, 0, 32768⟩, some ⟨false, 999984741, 32767⟩] := by decide

/-! ## Timestamp encoder/decoder: D to fixed point -/

/-- X2 and STATUS after a conversion. -/
def seeX2 (i : Instr) (s : State) : Option (DWord × Word) :=
  see (fun t => (t.readX .x2, statusOf t)) (exec i s)

/-- E-1, E-2, E-5, E-7, E-9, E-11. -/
theorem test_d2ts_value :
    [withD 1 false 3857861504 500000000, withD 1 false 0 999999999, withD 1 true 0 0,
      withD 3 false 4294967296 0, withD 3 false 2147483648 0, withD 0x101 false 4294967312 5].map
      (seeX2 (.d2ts .x2))
    = [some (0xE5F24B8080000000, 0), some (0xFFFFFFFC, 0), some (0, 0), some (0, 0),
      some (0x8000000000000000, 0), some (0x1000000016, 0)] := by decide

/-- E-3, E-4, E-6, E-8, E-10. -/
theorem test_d2ts_range :
    [withD 1 false 0 1000000000, withD 1 true 0 1, withD 1 false 4294967296 0,
      withD 3 false 2147483647 0, withD 3 false 6442450944 0].map (seeX2 (.d2ts .x2))
    = List.replicate 5 (some (0xAAAAAAAAAAAAAAAA, 5)) := by decide

/-- F-1, F-2, F-5, F-6. -/
theorem test_d2u_value :
    [withD 1 false 0 100000000, withD 1 false 4294967295 999999999, withD 1 true 0 0,
      withD 1 false 0 1].map (seeX2 (.d2u .x2))
    = [some (0x1999999A, 0), some (0xFFFFFFFFFFFFFFFC, 0), some (0, 0), some (5, 0)] := by decide

/-- F-3, F-4. -/
theorem test_d2u_range :
    [withD 1 false 4294967296 0, withD 1 true 0 1].map (seeX2 (.d2u .x2))
    = List.replicate 2 (some (0xAAAAAAAAAAAAAAAA, 5)) := by decide

/-- G-1, G-2, G-4, G-6. -/
theorem test_d2s_value :
    [withD 1 true 0 500000000, withD 1 true 2147483648 0, withD 1 false 2147483647 999999999,
      withD 1 true 0 0].map (seeX2 (.d2s .x2))
    = [some (0xFFFFFFFF80000000, 0), some (0x8000000000000000, 0), some (0x7FFFFFFFFFFFFFFC, 0),
      some (0, 0)] := by decide

/-- G-3, G-5, G-7. -/
theorem test_d2s_range :
    [withD 1 false 2147483648 0, withD 1 true 2147483648 1, withD 1 false 5 4294967295].map
      (seeX2 (.d2s .x2))
    = List.replicate 3 (some (0xAAAAAAAAAAAAAAAA, 5)) := by decide

/-- K-1, K-2, K-3, K-4, K-6. -/
theorem test_d2h_value :
    [withD 1 true 1 0, withD 1 false 0 999999999, withD 1 false 0 999984741, withD 1 true 32768 0,
      withD 1 false 32767 999984741].map (seeX2 (.d2h .x2))
    = [some (0xFFFF0000, 0), some (0x10000, 0), some (0xFFFF, 0), some (0x80000000, 0),
      some (0x7FFFFFFF, 0)] := by decide

/-- K-5, K-7. -/
theorem test_d2h_range :
    [withD 1 false 32768 0, withD 1 false 32767 999984742].map (seeX2 (.d2h .x2))
    = List.replicate 2 (some (0xAAAAAAAAAAAAAAAA, 5)) := by decide

/-! ## Offset/delay unit -/

/-- P4: x4 − x1 across the rollover; and x1 − x4. -/
theorem test_tsub :
    [see (fun t => t.readX .x7) (exec (.tsub .x7 .x4 .x1) (withX 0xFFFFFFFF80000000 0 0 0x80000000)),
      see (fun t => t.readX .x7) (exec (.tsub .x7 .x1 .x4) (withX 0xFFFFFFFF80000000 0 0 0x80000000))]
    = [some 0x100000000, some 0xFFFFFFFF00000000] := by decide

/-- X5 after OFFSET of X1 to X4. -/
def seeOffset (s : State) : Option DWord :=
  see (fun t => t.readX .x5) (exec (.offset .x5 .x1 .x2 .x3 .x4) s)

/-- L1-4, O-6, O-8, O-9, O-10, O-11. -/
theorem test_offset :
    [withX 0 0x500000000 0x500000000 0x1999999A, withX 1 0 0 0, withX 3 0 0 0,
      withX 0x8000000000000000 0 0x8000000000000000 0, withX 0 0x7FFFFFFFFFFFFFFF 0x7FFFFFFFFFFFFFFF 0,
      withX 0 0x8000000000000000 0 0x7FFFFFFFFFFFFFFF].map seeOffset
    = [some 0x4F3333333, some 0xFFFFFFFFFFFFFFFF, some 0xFFFFFFFFFFFFFFFE, some 0x8000000000000000,
      some 0x7FFFFFFFFFFFFFFF, some 0x8000000000000000] := by decide

/-- O-16: sources are read before the destination is written. -/
theorem test_offset_same_register :
    see (fun t => t.readX .x1) (exec (.offset .x1 .x1 .x2 .x1 .x2) (withX 0x1000000000 0x1080000000 0 0))
    = some 0 := by decide

/-- X6 and STATUS after DELAY of X1 to X4. -/
def seeDelay (s : State) : Option (DWord × Word) :=
  see (fun t => (t.readX .x6, statusOf t)) (exec (.delay .x6 .x1 .x2 .x3 .x4) s)

/-- O-4, O-13, O-19: clamped. -/
theorem test_delay_clamped :
    [withX 0x1000000000 0x1080000000 0x1180000000 0x10C0000000,
      withX 0 0 0x7FFFFFFFFFFFFFFF 0x8000000000000000, withX 0 0x7FFFFFFFFFFFFFFF 0x8000000000000000 0].map
      seeDelay
    = List.replicate 3 (some (0, 0x200)) := by decide

/-- L1-4, O-11, O-12, O-18: exact. -/
theorem test_delay_exact :
    [withX 0 0x500000000 0x500000000 0x1999999A, withX 0 0x8000000000000000 0 0x7FFFFFFFFFFFFFFF,
      withX 0 0 0x8000000000000000 0x8000000000000000, withX 0 0 0x8000000000000000 0].map seeDelay
    = [some (0x1999999A, 0), some (0xFFFFFFFFFFFFFFFF, 0), some (0, 0), some (0x8000000000000000, 0)] := by
  decide

/-! ## The bus -/

/-- A-1 to A-5. -/
theorem test_bus_reads :
    [0x000, 0x004, 0x008, 0x014, 0x00C].map
      (fun off => see State.reads (step (withEvent (.read 32 (0x1000 + off)))))
    = [some [0x534E5450#32], some [1#32], some [0#32], some [0x28#32], some [0#32]] := by decide

/-- A-6, A-7, A-11: reserved bits dropped, bytes most significant first. -/
theorem test_bus_writes :
    [see (fun t => t.block.readWord .ctrl) (step (wr 0x004 0xFFFFFFFF)),
      see (fun t => t.block.readWord .dNeg) (step (wr 0x018 0xFFFFFFFF))]
      = [some 0xFF03#32, some 1#32]
    ∧ see (fun t => [t.pktByte 0, t.pktByte 1, t.pktByte 2, t.pktByte 3]) (step (wr 0x100 0x24020AEC))
      = some [0x24#8, 0x02#8, 0x0A#8, 0xEC#8] := by decide

/-- A-8, A-10: writes that change nothing. -/
theorem test_bus_ignored :
    [0x040, 0x044, 0x000, 0x008, 0x014, 0x080, 0x0E4].map
      (fun off => see State.block (step (wr off 0xFFFFFFFF)))
    = List.replicate 7 (some Block.reset) := by decide

/-- A-9: the halves of X1. -/
theorem test_bus_halves :
    see (fun t => t.readX .x1) (step (wr 0x048 0xE5F24B80)) = some 0xE5F24B8000000000#64
    ∧ see (fun t => t.readX .x1) (step (wr 0x04C 0x80000000)) = some 0x80000000#64 := by decide

/-- A-12 to A-16, and an address outside the window. -/
theorem test_bus_errors :
    [(32, 0x028), (32, 0x0E8), (32, 0x130), (32, 0x002), (16, 0x000), (8, 0x103), (32, 0x1000)].map
      (fun e => faultOf (step (withEvent (.read e.1 (0x1000 + e.2)))))
    = [some .unmapped, some .unmapped, some .unmapped, some .misaligned, some .wrongWidth,
      some .wrongWidth, none] := by decide

/-- C-2: an illegal word keeps RPV and clears the warnings. -/
theorem test_bus_illegal_command :
    see statusOf (step { wr 0x00C 0x00000001 with block := { Block.reset with
      status := { err := .ok, wUnsync := false, wNegdly := true, rpv := true } } })
    = some 0x00010006#32 := by decide

/-- P1's accesses, as the host notation writes them (30_encoding.md R118). -/
theorem test_host_notation :
    ((atBlock Block.reset).queue [.rd 0x014, .wr64 .x1 0xE5F24B8080000000#64, .cmd (.enc .x1 4#3 3#3)]).pending
    = [.read 32 0x1014, .write 32 0x1048 0xE5F24B80#32, .write 32 0x104C 0x80000000#32,
      .write 32 0x100C 0x0E000810#32] := by decide

/-! ## Assembler (30_encoding.md R115 to R117) -/

theorem test_asm_command :
    assemble ['E', 'N', 'C', ' ', 'x', '1', ',', ' ', '4', ',', ' ', '3'] = some (.enc .x1 4#3 3#3) := by
  decide

theorem test_asm_selector :
    assemble ['r', 'p', 'g', 'e', 't', ' ', 'X', '7', ',', 'r', 'e', 'f', 'i', 'd'] = some (.rpget .x7 8#4)
      ∧ assemble ['r', 'p', 'g', 'e', 't', ' ', 'x', '7', ',', '1', '3'] = none := by decide

theorem test_asm_pseudo :
    assemble ['G', 'E', 'T', 'T', '3', ' ', 'x', '3'] = some (.rpget .x3 12#4)
      ∧ assemble ['N', 'E', 'G', 'T', 'S', ' ', 'x', '1', ',', 'x', '2'] = some (.tsub .x1 .x0 .x2) := by
  decide

/-! ## Witnesses: states and operands that meet every hypothesis of an obligation, clause by clause -/

/-! ### Encoding -/

theorem witness_DecodeOfEncode :
    Instr.wellFormed (.rpget .x7 12#4) = true ∧ Instr.wellFormed (.enc .x7 7#3 7#3) = true
      ∧ Instr.wellFormed (.delay .x7 .x7 .x7 .x7 .x7) = true := by decide

theorem witness_EncodeOfDecode :
    decode 0x06000714#32 = .command (.rpget .x7 12#4) ∧ decode 0x1F803810#32 = .command (.enc .x7 7#3 7#3) := by
  decide

theorem witness_MatchAndMaskSelect :
    (0x06000714#32 &&& Opcode.rpget.mask = Opcode.rpget.matchWord
      ∧ (0x06000714#32 : Word).toNat / 2 ^ 23 % 16 = 12)
    ∧ 0x00FFFF31#32 &&& Opcode.offset.mask ≠ Opcode.offset.matchWord
    ∧ 0x007FFF31#32 &&& Opcode.offset.mask = Opcode.offset.matchWord := by decide

theorem witness_IllegalWordsExactly :
    decode 0x06800014#32 = .illegal .selectorOutOfRange ∧ decode 0x0000000F#32 = .illegal .unassignedOpcode
      ∧ decode 0x00000015#32 = .illegal .unassignedOpcode ∧ decode 0x0000001F#32 = .illegal .unassignedOpcode
      ∧ decode 0x0000002F#32 = .illegal .unassignedOpcode ∧ decode 0x000000FF#32 = .illegal .unassignedOpcode
      ∧ decode 0x00000010#32 = .command (.enc .x0 0#3 0#3) := by decide

/-! ### Step, reset and bus -/

theorem witness_StepRunsTheCommandWritten :
    (wr 0x00C 0x00000011#32).pending = .write 32 ((wr 0x00C 0x00000011#32).base + 0x00C) 0x00000011#32 :: []
      ∧ decode 0x00000011#32 = .command .dec := by decide

theorem witness_IllegalWordReportsIllegal :
    (wr 0x00C 0x00000001#32).pending = .write 32 ((wr 0x00C 0x00000001#32).base + 0x00C) 0x00000001#32 :: []
      ∧ decode 0x00000001#32 = .illegal .unassignedOpcode := by decide

theorem witness_OnlyResetOrWriteChangesBlock :
    State.reset.pending = []
      ∧ see State.block (step (wr 0x010 48#32)) ≠ some (wr 0x010 48#32).block
      ∧ (∃ t, step (wr 0x010 48#32) = .next t) := ⟨by decide, by decide, _, rfl⟩

theorem witness_ResetSetsEveryValue :
    { withX1 1#64 with pending := [HostEvent.reset] }.pending = [.reset] := by decide

theorem witness_OneEventAtATime :
    ∃ t, (wr 0x00C 0#32).pending = .write 32 0x100C 0#32 :: [] ∧ step (wr 0x00C 0#32) = .next t :=
  ⟨_, rfl, rfl⟩

/-- The offsets where the holes of the map begin and end. -/
theorem witness_AddressMapIsExact :
    [0x024, 0x028, 0x03C, 0x040, 0x0E4, 0x0E8, 0x0FC, 0x100, 0x12C, 0x130].map busWordAt
    = [some .dSecsLo, none, none, some (.xHi .x0), some (.rpLo .txts), none, none, some (.pkt 0),
      some (.pkt 11), none] := by decide

/-- The first and the last address of the window, a legal access and one that is not. -/
theorem witness_BusErrorExactlyWhenIllegal :
    HostEvent.InWindow 0x1000 (.read 32 0x1000) ∧ HostEvent.Legal 0x1000 (.read 32 0x1000)
      ∧ HostEvent.InWindow 0x1000 (.write 32 0x1FFF 0#32)
      ∧ (withEvent (.write 32 0x1FFF 0#32)).pending = .write 32 0x1FFF 0#32 :: []
      ∧ faultOf (step (withEvent (.write 32 0x1FFF 0#32))) = some .misaligned :=
  ⟨by unfold HostEvent.InWindow; decide, ⟨rfl, .id, rfl⟩, by unfold HostEvent.InWindow; decide, rfl,
    by decide⟩

theorem witness_BusReadReturnsTheWord :
    (withEvent (.read 32 0x112C)).pending
      = .read 32 ((withEvent (.read 32 0x112C)).base + (BusWord.pkt 11).offset) :: [] := by decide

/-- A hypothesis of several obligations: a write waits for each word named, the first and the last of each run. -/
theorem witness_writes_wait :
    [BusWord.ctrl, .dNeg, .rxLen, .dNanos, .dSecsHi, .dSecsLo, .pkt 0, .pkt 11, .xHi .x1, .xLo .x7,
      .id, .status, .txOff, .xHi .x0, .xLo .x0, .rpHi .li, .rpLo .txts].map
      (fun w => decide ((wr w.offset 1#32).pending = [.write 32 ((wr w.offset 1#32).base + w.offset) 1#32]))
    = List.replicate 17 true
    ∧ (wr 0 0#32).block.pkt.wf = true := by decide

theorem witness_HalfRegisterWrite :
    Reg.x1 ≠ .x0
      ∧ (wr 0x048 5#32).pending
        = .write 32 ((wr 0x048 5#32).base + (0x040 + 8 * (regNum .x1).toNat)) 5#32 :: []
      ∧ Reg.x7 ≠ .x0
      ∧ (wr 0x07C 5#32).pending
        = .write 32 ((wr 0x07C 5#32).base + (0x044 + 8 * (regNum .x7).toNat)) 5#32 :: [] := by decide

theorem witness_BusWriteChangesOnlyItsWord :
    BusWord.xHi .x1 ≠ .cmd ∧ BusWord.xLo .x1 ≠ .xHi .x1 ∧ (wr 0x048 5#32).block.pkt.wf = true
      ∧ (wr 0x048 5#32).pending = .write 32 ((wr 0x048 5#32).base + (BusWord.xHi .x1).offset) 5#32 :: [] := by
  decide

theorem witness_RepeatedWriteIsOneWrite :
    { wr 0x010 5#32 with pending := [.write 32 0x1010 5#32, .write 32 0x1010 5#32] }.pending
      = .write 32 (0x1000 + BusWord.rxLen.offset) 5#32 :: .write 32 (0x1000 + BusWord.rxLen.offset) 5#32 :: []
      ∧ BusWord.rxLen ≠ .cmd := by decide

theorem witness_PacketWordPacking :
    (wr 0x12C 5#32).block.pkt.wf = true
      ∧ (wr 0x12C 5#32).pending
        = .write 32 ((wr 0x12C 5#32).base + (0x100 + 4 * (11 : Fin 12).val)) 5#32 :: [] := by decide

/-! ### Every command -/

/-- Every command answers a next state from every state; here one from reset. -/
theorem witness_exec_next :
    (∃ t, exec (.enc .x1 4#3 3#3) State.reset = .next t) ∧ (∃ t, exec (.rpget .x0 12#4) State.reset = .next t)
      ∧ (∃ t, exec .dec State.reset = .next t) ∧ destOf (.rpget .x0 12#4) = some .x0
      ∧ (∃ t, exec (.ts2d .x1) State.reset = .next t) :=
  ⟨⟨_, rfl⟩, ⟨_, rfl⟩, ⟨_, rfl⟩, rfl, ⟨_, rfl⟩⟩

/-- The two premises on CTRL, met by a CTRL that differs where the command does not look. -/
theorem witness_WhichCommandReadsCtrl :
    (ctrlOfWord 0xFF03#32).unsyncFatal = Block.reset.ctrl.unsyncFatal
      ∧ ctrlOfWord 0xFF03#32 ≠ Block.reset.ctrl
      ∧ (ctrlOfWord 0#32).eraMode = Block.reset.ctrl.eraMode ∧ (ctrlOfWord 0#32).era = Block.reset.ctrl.era
      ∧ ctrlOfWord 0#32 ≠ Block.reset.ctrl := by decide

/-! ### Packet marshaller -/

/-- A DEC row for each premise: lengths 47 and 49, modes 3 and 5, modes 2 and 4 with each outcome. -/
theorem witness_DecChecksInOrder :
    ((withReply 1 47 0x24020AEC).block.rxLen.toNat ≠ 48 ∧ (withReply 1 49 0x24020AEC).block.rxLen.toNat ≠ 48)
    ∧ ((withReply 1 48 0x25020AEC).block.rxLen.toNat = 48
      ∧ ((withReply 1 48 0x25020AEC).pktByte 0).toNat % 8 ≠ 4
      ∧ ((withReply 1 48 0x25020AEC).pktByte 0).toNat % 8 ≠ 2)
    ∧ (((withReply 1 48 0xE2000AEC).pktByte 0).toNat % 8 = 2 ∧ ((withReply 1 48 0xE2000AEC).pktByte 1).toNat = 0)
    ∧ (((withReply 1 48 0xA4010AEC).pktByte 0).toNat % 8 = 4
      ∧ ((withReply 1 48 0xA4010AEC).pktByte 0).toNat / 64 ≠ 3
      ∧ ((withReply 1 48 0xA4010AEC).pktByte 1).toNat ≠ 0)
    ∧ (((withReply 1 48 0xE401FFEC).pktByte 0).toNat / 64 = 3
      ∧ ((withReply 1 48 0xE401FFEC).pktByte 1).toNat ≠ 0
      ∧ (withReply 1 48 0xE401FFEC).block.ctrl.unsyncFatal = true)
    ∧ (withReply 0 48 0xE401FFEC).block.ctrl.unsyncFatal = false := by decide

theorem witness_LatchedFields :
    (withReply 1 48 0x24020AEC).block.rxLen.toNat = 48
      ∧ ((withReply 1 48 0x24020AEC).pktByte 0).toNat % 8 = 4
      ∧ ((withReply 1 48 0x22020AEC).pktByte 0).toNat % 8 = 2 := by decide

theorem witness_KissOfDeathReasonCode :
    (∃ t, exec .dec (withReply 1 48 0x24000AEC) = .next t ∧ t.block.status.err = .kod) := ⟨_, rfl, rfl⟩

theorem witness_SettsStoresTheSlot : State.reset.block.pkt.wf = true := by decide

theorem witness_RpgetCopiesTheReplyRegister :
    ((0x06800014#32 : Word).toNat % 256 = 0x14 ∧ 12 < (0x06800014#32 : Word).toNat / 2 ^ 23 % 16)
      ∧ ((0x07800014#32 : Word).toNat % 256 = 0x14 ∧ (0x07800014#32 : Word).toNat / 2 ^ 23 % 16 = 15) := by
  decide

theorem witness_TimestampRoundTrip :
    State.reset.block.pkt.wf = true ∧ ((2#3 : BitVec 3) = 2#3 ∨ (2#3 : BitVec 3) = 4#3)
      ∧ ((4#3 : BitVec 3) = 2#3 ∨ (4#3 : BitVec 3) = 4#3) := by decide

/-! ### Timestamp encoder/decoder -/

theorem witness_Ts2dResult :
    (withCtrlX1 1 0).block.ctrl.eraMode = false ∧ (withCtrlX1 3 0).block.ctrl.eraMode = true
      ∧ 2 ^ 63 ≤ ((withCtrlX1 3 0x8000000000000000).readX .x1).toNat
      ∧ ((withCtrlX1 3 0x7FFFFFFFFFFFFFFF).readX .x1).toNat < 2 ^ 63 := by decide

/-- The first and the last second of the pivot window, and the seconds beside it. -/
theorem witness_D2tsResult_pivot :
    (InEraWindow (ctrlOfWord 3) 2147483648 ∧ InEraWindow (ctrlOfWord 3) 6442450943)
      ∧ ¬ InEraWindow (ctrlOfWord 3) 2147483647 ∧ ¬ InEraWindow (ctrlOfWord 3) 6442450944 := by
  unfold InEraWindow
  decide

theorem witness_D2tsResult_fixed :
    InEraWindow (ctrlOfWord 1) 4294967295 ∧ ¬ InEraWindow (ctrlOfWord 1) 4294967296 := by
  unfold InEraWindow
  decide

/-- NEG with and without a magnitude, and NANOS on both sides of 10^9. -/
theorem witness_D2tsResult_sign :
    (¬ NegativeD ⟨true, 0, 0⟩ ∧ NegativeD ⟨true, 1, 0⟩)
      ∧ (withD 3 false 2147483648 999999999).block.d.nanos.toNat < 10 ^ 9
      ∧ 10 ^ 9 ≤ (withD 3 false 2147483648 1000000000).block.d.nanos.toNat := by
  unfold NegativeD
  decide

theorem witness_D2uResult :
    (withD 1 false 4294967295 999999999).block.d.nanos.toNat < 10 ^ 9
      ∧ ¬ NegativeD (withD 1 false 4294967295 999999999).block.d
      ∧ (withD 1 false 4294967295 999999999).block.d.secs.toNat < 2 ^ 32
      ∧ 2 ^ 32 ≤ (withD 1 false 4294967296 0).block.d.secs.toNat := by
  unfold NegativeD
  decide

/-- The magnitudes beside the limits: 2^63 − 4 and 2^63 for each sign. -/
theorem witness_D2sResult :
    (withD 1 false 2147483647 999999999).block.d.secs.toNat * 2 ^ 32 + nsToFrac32 999999999 ≤ 2 ^ 63 - 1
      ∧ (withD 1 false 2147483647 999999999).block.d.neg = false
      ∧ (withD 1 true 2147483648 0).block.d.secs.toNat * 2 ^ 32 + nsToFrac32 0 = 2 ^ 63
      ∧ (withD 1 true 2147483648 0).block.d.neg = true
      ∧ 2 ^ 63 - 1 < (withD 1 false 2147483648 0).block.d.secs.toNat * 2 ^ 32 + nsToFrac32 0
      ∧ 2 ^ 63 < (withD 1 true 2147483648 1).block.d.secs.toNat * 2 ^ 32 + nsToFrac32 1 := by decide

/-- The magnitudes beside the limits: 2^31 − 1 and 2^31 for each sign. -/
theorem witness_D2hResult :
    (withD 1 false 32767 999984741).block.d.secs.toNat * 2 ^ 16 + nsToFrac16 999984741 = 2 ^ 31 - 1
      ∧ (withD 1 true 32768 0).block.d.secs.toNat * 2 ^ 16 + nsToFrac16 0 = 2 ^ 31
      ∧ (withD 1 false 32767 999984742).block.d.secs.toNat * 2 ^ 16 + nsToFrac16 999984742 = 2 ^ 31
      ∧ 2 ^ 31 < (withD 1 true 32768 1).block.d.secs.toNat * 2 ^ 16 + nsToFrac16 1 := by decide

theorem witness_DurationRoundTripIsExact :
    (999999999 < 10 ^ 9) ∧ Reg.x2 ≠ .x0
      ∧ (∃ t, exec (.d2u .x2) (withD 1 false 7 123456789) = .next t ∧ t.block.status.err = .ok)
      ∧ (∃ t, exec (.d2s .x2) (withD 1 true 0 500000000) = .next t ∧ t.block.status.err = .ok)
      ∧ (∃ t, exec (.d2ts .x2) (withD 3 false 4294967296 1) = .next t ∧ t.block.status.err = .ok) :=
  ⟨by decide, by decide, ⟨_, rfl, rfl⟩, ⟨_, rfl, rfl⟩, ⟨_, rfl, rfl⟩⟩

theorem witness_FixedPointRoundTripIsStable : (2 ^ 32 - 1 < 2 ^ 32) ∧ Reg.x7 ≠ .x0 := by decide

theorem witness_ShortRoundTripIsExact :
    (2 ^ 16 - 1 < 2 ^ 16) ∧ Reg.x2 ≠ .x0
      ∧ (withD 1 true 32767 999984741).block.d.value = some (-32767999984741)
      ∧ (∃ t, exec (.d2h .x2) (withD 1 true 32767 999984741) = .next t ∧ t.block.status.err = .ok) :=
  ⟨by decide, by decide, by decide, _, rfl, rfl⟩

/-! ### Offset/delay unit -/

theorem witness_DelayResult :
    sdiff 0x7FFFFFFFFFFFFFFF#64 0#64 - sdiff 0x7FFFFFFFFFFFFFFF#64 0#64 = 0
      ∧ sdiff 0#64 0#64 - sdiff 1#64 0#64 < 0 := by decide

/-- Both ends of the range, with instants of different eras. -/
theorem witness_EraIndependence :
    (-2 ^ 63 ≤ (2 ^ 64 - 2 ^ 62 : Int) - (2 ^ 64 + 2 ^ 62) ∧ (2 ^ 64 - 2 ^ 62 : Int) - (2 ^ 64 + 2 ^ 62) < 2 ^ 63)
      ∧ (-2 ^ 63 ≤ (2 ^ 64 + 2 ^ 62 - 1 : Int) - (2 ^ 64 - 2 ^ 62)
        ∧ (2 ^ 64 + 2 ^ 62 - 1 : Int) - (2 ^ 64 - 2 ^ 62) < 2 ^ 63)
      ∧ (withX 0x4000000000000000 0xC000000000000000 0 0).readX .x1 = BitVec.ofInt 64 (2 ^ 64 + 2 ^ 62)
      ∧ (withX 0x4000000000000000 0xC000000000000000 0 0).readX .x2 = BitVec.ofInt 64 (2 ^ 64 - 2 ^ 62)
      ∧ Reg.x3 ≠ .x0 := by decide

/-- The premises of OFFSET and of DELAY, with instants on both sides of the end of an era; the first delay
is not negative, the second is. -/
theorem witness_EraIndependence_sums :
    (-2 ^ 63 ≤ (2 ^ 64 - 2 ^ 30 : Int) - (2 ^ 64 - 2 ^ 31) ∧ (2 ^ 64 - 2 ^ 30 : Int) - (2 ^ 64 - 2 ^ 31) < 2 ^ 63)
      ∧ (-2 ^ 63 ≤ (2 ^ 64 + 2 ^ 30 : Int) - (2 ^ 64 + 2 ^ 31) ∧ (2 ^ 64 + 2 ^ 30 : Int) - (2 ^ 64 + 2 ^ 31) < 2 ^ 63)
      ∧ (0 ≤ ((2 ^ 64 + 2 ^ 31 : Int) - (2 ^ 64 - 2 ^ 31)) - ((2 ^ 64 + 2 ^ 30) - (2 ^ 64 - 2 ^ 30)))
      ∧ ((0 : Int) - 0) - ((2 ^ 63 - 1) - 0) < 0
      ∧ (withX 0xFFFFFFFF80000000 0xFFFFFFFFC0000000 0x40000000 0x80000000).readX .x4
        = BitVec.ofInt 64 (2 ^ 64 + 2 ^ 31)
      ∧ (withX 0 0 0x7FFFFFFFFFFFFFFF 0).readX .x3 = BitVec.ofInt 64 (2 ^ 63 - 1) := by decide

theorem witness_OffsetZeroExactly :
    (withX 0 0x100000000 0x100000000 0x400000000).readX .x1 = 0#64
      ∧ (withX 0 0x100000000 0x100000000 0x400000000).readX .x2 = 0x100000000#64
      ∧ (withX 0 0x100000000 0x100000000 0x400000000).readX .x3 = 0x100000000#64
      ∧ (withX 0 0x100000000 0x100000000 0x400000000).readX .x4 = 0x400000000#64 ∧ Reg.x5 ≠ .x0 := by decide

/-- T1 to T4 in order across the end of an era, and the widest T4 − T1. -/
theorem witness_OrderedDelayIsExact :
    (withX 0xFFFFFFFF80000000 0xFFFFFFFFC0000000 0x40000000 0x80000000).readX .x1
        = BitVec.ofInt 64 (2 ^ 64 - 2 ^ 31)
      ∧ (withX 0xFFFFFFFF80000000 0xFFFFFFFFC0000000 0x40000000 0x80000000).readX .x2
        = BitVec.ofInt 64 (2 ^ 64 - 2 ^ 30)
      ∧ (withX 0xFFFFFFFF80000000 0xFFFFFFFFC0000000 0x40000000 0x80000000).readX .x3
        = BitVec.ofInt 64 (2 ^ 64 + 2 ^ 30)
      ∧ (withX 0xFFFFFFFF80000000 0xFFFFFFFFC0000000 0x40000000 0x80000000).readX .x4
        = BitVec.ofInt 64 (2 ^ 64 + 2 ^ 31)
      ∧ ((2 ^ 64 + 2 ^ 30 : Int) - (2 ^ 64 - 2 ^ 30) ≤ (2 ^ 64 + 2 ^ 31) - (2 ^ 64 - 2 ^ 31))
      ∧ ((2 ^ 63 - 1 : Int) - 0 < 2 ^ 63) := by decide

theorem witness_ArithmeticReadsOnlySources :
    (∀ r, (withX 1 2 3 4).readX r = ((withX 1 2 3 4).setCtrl (ctrlOfWord 0)).readX r)
      ∧ (withX 1 2 3 4) ≠ (withX 1 2 3 4).setCtrl (ctrlOfWord 0) := ⟨fun _ => rfl, by decide⟩

/-! ### Invariant and safe runs -/

theorem witness_Inv_after_latch :
    State.Inv { withReply 1 48 0x24020AEC with pending := [.write 32 0x100C 0x00000011#32] }
      ∧ ∃ t, step { withReply 1 48 0x24020AEC with pending := [.write 32 0x100C 0x00000011#32] } = .next t :=
  ⟨by decide, _, rfl⟩

theorem witness_Orderly :
    State.Orderly { atBlock Block.reset with pending := [.reset, .read 32 0x112C, .write 32 0x100C 1#32] } := by
  intro e he
  simp only [List.mem_cons, List.not_mem_nil, or_false] at he
  rcases he with rfl | rfl | rfl
  · trivial
  · exact ⟨rfl, .pkt 11, rfl⟩
  · exact ⟨rfl, .cmd, rfl⟩

end Sys2Proof.Tests
end

section
/-! SUPPORT. What a step can do, said once, and the invariant: it holds at reset and every step keeps it
(10_state.md R22, R32, R33; 60_exceptions.md R250). -/

namespace Sys2Proof.Machine

/-! ## What a step can do -/

/-- The next states a step can answer: nothing pending, the reset signal, a read, a write that is
stored, or a write to CMD. -/
inductive StepShape (s : State) : State → Prop where
  | idle (h : s.pending = []) : StepShape s s
  | reset (rest : List HostEvent) (h : s.pending = .reset :: rest) :
      StepShape s { s with pending := rest, block := Block.reset }
  | read (bits addr : Nat) (rest : List HostEvent) (h : s.pending = .read bits addr :: rest)
      (w : BusWord) (hl : locate s.base bits addr = .word w) :
      StepShape s { s with pending := rest, reads := s.block.readWord w :: s.reads }
  | store (bits addr : Nat) (v : Word) (rest : List HostEvent)
      (h : s.pending = .write bits addr v :: rest)
      (w : BusWord) (hl : locate s.base bits addr = .word w) (hw : w ≠ .cmd) :
      StepShape s { s with pending := rest, block := s.block.writeWord w v }
  | command (bits addr : Nat) (v : Word) (rest : List HostEvent)
      (h : s.pending = .write bits addr v :: rest)
      (hl : locate s.base bits addr = .word .cmd) (t : State)
      (ht : runCommand v { s with pending := rest } = .next t) : StepShape s t

/-- The shape of a step that answers a next state. -/
theorem step_shape_of_next {s t : State} (h : step s = .next t) : StepShape s t := by
  unfold step at h
  split at h
  next hp => cases h; exact .idle hp
  next e rest hp =>
    cases e with
    | reset => cases h; exact .reset rest hp
    | read bits addr =>
      simp only [hostEvent] at h
      split at h
      next w hl => cases h; exact .read bits addr rest hp w hl
      · cases h
      · cases h
    | write bits addr v =>
      simp only [hostEvent] at h
      split at h
      next w hl =>
        by_cases hw : w = .cmd
        · subst hw
          exact .command bits addr v rest hp hl t ((hostWrite_cmd v _).symm.trans h)
        · rw [hostWrite_store w v _ hw] at h
          cases h
          exact .store bits addr v rest hp w hl hw
      · cases h
      · cases h

/-! ## What every command leaves unchanged -/

theorem ExecShape.hostSideSame {i : Instr} {s t : State} (h : ExecShape i s t) : HostSideSame s t := by
  cases h <;> exact ⟨rfl, rfl, rfl⟩

/-! ## The block's part of the invariant -/

/-- The invariant without the window: what it says of the block alone. -/
abbrev Block.Inv (b : Block) : Prop := b.pkt.wf = true ∧ b.rp.InWidth ∧ b.StatusAgrees

theorem State.inv_iff (s : State) : s.Inv ↔ s.base % 4096 = 0 ∧ s.block.Inv := Iff.rfl

theorem Block.reset_inv : Block.reset.Inv := by decide

/-! ## Agreement of STATUS with the latched reply -/

/-- A command that is no DEC ends with a code that says nothing of the reply, without W_UNSYNC, and leaves
RPV and the reply as they were. -/
theorem Block.StatusAgrees.of_replySame {b b' : Block} (h : b.StatusAgrees) (hrp : b'.rp = b.rp)
    (hrpv : b'.status.rpv = b.status.rpv)
    (herr : b'.status.err = .ok ∨ b'.status.err = .range ∨ b'.status.err = .illegal)
    (hu : b'.status.wUnsync = false) (hn : b'.status.wNegdly = true → b'.status.err = .ok) :
    b'.StatusAgrees := by
  obtain ⟨hmode, -⟩ := h
  unfold Block.StatusAgrees
  rw [hrp, hrpv, hu]
  refine ⟨hmode, ?_, ?_, ?_, nofun, fun h => ⟨hn h, rfl⟩⟩ <;>
    (intro h; rcases herr with e | e | e <;> simp [e] at h)

/-- A DEC that latches nothing clears RPV, and its code says no more than that. -/
theorem Block.StatusAgrees.of_refused {b : Block} (hrpv : b.status.rpv = false)
    (herr : b.status.err = .malformed ∨ b.status.err = .invmode)
    (hu : b.status.wUnsync = false) (hn : b.status.wNegdly = false) : b.StatusAgrees := by
  unfold Block.StatusAgrees
  rw [hrpv, hu, hn]
  refine ⟨nofun, fun _ => rfl, ?_, ?_, nofun, nofun⟩ <;>
    (intro h; rcases herr with e | e <;> simp [e] at h)

theorem toNat_latchedReply_mode (m : Memory) :
    (latchedReply m).mode.toNat = (m.read 0).toNat % 8 := by
  simp only [latchedReply, BitVec.toNat_setWidth, toNat_headerMode]
  omega

theorem toNat_latchedReply_stratum (m : Memory) :
    (latchedReply m).stratum.toNat = (m.read 1).toNat := by
  simp only [latchedReply, BitVec.toNat_setWidth]
  omega

theorem toNat_latchedReply_li (m : Memory) :
    (latchedReply m).li.toNat = (m.read 0).toNat / 64 := by
  simp only [latchedReply, BitVec.toNat_setWidth, toNat_headerLI]
  omega

theorem headerLI_eq_three (b : Byte) : headerLI b = 3#2 ↔ b.toNat / 64 = 3 := by
  rw [← BitVec.toNat_inj, toNat_headerLI]
  rfl

/-- A DEC that latches an accepted mode ends with the code and the warning that the latched stratum and
leap indicator call for. -/
theorem State.latch_statusAgrees {s : State} {c : Code} {u : Bool}
    (hm : modeAccepted (headerMode (s.pktByte 0)) = true) (hv : ReplyVerdict s c u) :
    (s.latch.endCommand c u false).block.StatusAgrees := by
  have hmode : (latchedReply s.block.pkt).mode.toNat = 2 ∨ (latchedReply s.block.pkt).mode.toNat = 4 := by
    rw [toNat_latchedReply_mode]
    exact ((modeAccepted_iff _).mp hm).symm
  have hstratum : (latchedReply s.block.pkt).stratum.toNat = 0 ↔ s.pktByte 1 = 0#8 := by
    rw [toNat_latchedReply_stratum, ← BitVec.toNat_inj]
    rfl
  have hli : (latchedReply s.block.pkt).li.toNat = 3 ↔ headerLI (s.pktByte 0) = 3#2 := by
    rw [toNat_latchedReply_li, headerLI_eq_three]
    rfl
  unfold Block.StatusAgrees
  simp only [State.endCommand_rp, State.latch_rp, State.endCommand_err, State.endCommand_wUnsync,
    State.endCommand_wNegdly, State.endCommand_rpv, State.latch_rpv, ne_eq, hstratum, hli]
  cases hv with
  | kod h1 => simp [hmode, h1]
  | unsync h1 h2 _ => simp [hmode, h1, h2]
  | advisory h1 h2 _ => simp [hmode, h1, h2]
  | accepted _ _ => simp [hmode]

/-! ## The steps keep the invariant -/

theorem ExecShape.block_inv {i : Instr} {s t : State} (h : ExecShape i s t) (hs : s.block.Inv) :
    t.block.Inv := by
  obtain ⟨hwf, hwidth, hagrees⟩ := hs
  cases h with
  | status c _ hc => exact ⟨hwf, hwidth, hagrees.of_replySame rfl rfl hc rfl nofun⟩
  | register rd v n _ _ _ =>
    exact ⟨hwf, hwidth, hagrees.of_replySame rfl rfl (.inl rfl) rfl fun _ => rfl⟩
  | duration r d _ => exact ⟨hwf, hwidth, hagrees.of_replySame rfl rfl (.inl rfl) rfl nofun⟩
  | packet m _ hm => exact ⟨hm hwf, hwidth, hagrees.of_replySame rfl rfl (.inl rfl) rfl nofun⟩
  | refused c _ hc =>
    have herr : c = .malformed ∨ c = .invmode := hc.imp And.left And.left
    exact ⟨hwf, hwidth, .of_refused rfl herr rfl rfl⟩
  | latched _ _ hm c u hv =>
    exact ⟨hwf, latchedReply_inWidth _, State.latch_statusAgrees hm hv⟩

theorem State.Inv.of_execShape {i : Instr} {s t : State} (hs : s.Inv) (h : ExecShape i s t) : t.Inv :=
  ⟨h.hostSideSame.1 ▸ hs.1, h.block_inv hs.2⟩

/-- A command word runs a command or reports ILLEGAL, a code that says nothing of the reply. -/
theorem State.Inv.of_runCommand {w : Word} {s t : State} (hs : s.Inv) (h : runCommand w s = .next t) :
    t.Inv := by
  obtain ⟨u, hu, hshape⟩ := runCommand_next w s
  obtain rfl : u = t := by rw [hu] at h; cases h; rfl
  rcases hshape with ⟨i, -, hi⟩ | rfl
  · exact hs.of_execShape hi
  · obtain ⟨hbase, hwf, hwidth, hagrees⟩ := hs
    exact ⟨hbase, hwf, hwidth, hagrees.of_replySame rfl rfl (.inr (.inr rfl)) rfl nofun⟩

theorem pktWordOffset_bound (j : Fin 12) : pktWordOffset j + 4 ≤ 48 := by
  unfold pktWordOffset
  omega

/-- A bus write stores neither reply registers nor STATUS, and a packet word keeps the canonical form. -/
theorem Block.writeWord_inv {b : Block} (h : b.Inv) (w : BusWord) (v : Word) : (b.writeWord w v).Inv := by
  cases w with
  | pkt j => exact ⟨Memory.write32_wf _ h.1 _ _ (pktWordOffset_bound j), h.2⟩
  | _ => exact h

theorem StepShape.inv {s t : State} (h : StepShape s t) (hs : s.Inv) : t.Inv := by
  cases h with
  | idle _ => exact hs
  | reset rest _ => exact ⟨hs.1, Block.reset_inv⟩
  | read _ _ _ _ w _ => exact hs
  | store _ _ v _ _ w _ _ => exact ⟨hs.1, Block.writeWord_inv hs.2 w v⟩
  | command _ _ v rest _ _ _ ht =>
    have hrest : State.Inv { s with pending := rest } := hs
    exact hrest.of_runCommand ht

/-- Settles O59: a step has one of the shapes of `StepShape`, and each keeps the invariant. -/
theorem stepKeepsInvariant : Obligations.StepKeepsInvariant :=
  fun _ _ hs h => (step_shape_of_next h).inv hs

/-- Settles O58. -/
theorem resetMeetsInvariant : Obligations.ResetMeetsInvariant :=
  ⟨rfl, Block.reset_inv⟩

end Sys2Proof.Machine
end

section
/-! SUPPORT. What a command may write and which warnings it sets, from the shapes it can end in; and what
no command sees: STATUS, and CTRL but for DEC, TS2D and D2TS (10_state.md R21 to R34). -/

namespace Sys2Proof.Machine

/-! ## What a command may write -/

theorem ExecShape.controlSame {i : Instr} {s t : State} (h : ExecShape i s t) : ControlSame s t := by
  cases h <;> exact ⟨rfl, rfl⟩

theorem ExecShape.rp_same {i : Instr} {s t : State} (h : ExecShape i s t) (hi : i ≠ .dec) :
    t.block.rp = s.block.rp := by
  cases h with
  | latched hdec => exact absurd hdec hi
  | _ => rfl

theorem ExecShape.rpv_same {i : Instr} {s t : State} (h : ExecShape i s t) (hi : i ≠ .dec) :
    t.block.status.rpv = s.block.status.rpv := by
  cases h with
  | refused _ hdec => exact absurd hdec hi
  | latched hdec => exact absurd hdec hi
  | _ => rfl

theorem ExecShape.d_same {i : Instr} {s t : State} (h : ExecShape i s t)
    (hi : ∀ r, i ≠ .ts2d r ∧ i ≠ .u2d r ∧ i ≠ .s2d r ∧ i ≠ .h2d r) : t.block.d = s.block.d := by
  cases h with
  | duration r d hr =>
    obtain ⟨h1, h2, h3, h4⟩ := hi r
    simp [h1, h2, h3, h4] at hr
  | _ => rfl

theorem ExecShape.pktSame {i : Instr} {s t : State} (h : ExecShape i s t)
    (hi : ∀ r v m k, i ≠ .enc r v m ∧ i ≠ .setts r k) : PktSame s t := by
  cases h with
  | packet m hp =>
    rcases hp with ⟨r, v, o, rfl⟩ | ⟨r, k, rfl⟩
    · exact absurd rfl (hi r v o .ref).1
    · exact absurd rfl (hi r 0#3 0#3 k).2
  | _ => exact fun _ => rfl

theorem ExecShape.readX_same {i : Instr} {s t : State} (h : ExecShape i s t) {q : Reg}
    (hq : destOf i ≠ some q) : t.readX q = s.readX q := by
  cases h with
  | register rd v n hd =>
    have hne : q ≠ rd := by
      rintro rfl
      exact hq hd
    exact (finishX_frame s rd v n).1.2.2 q hne
  | _ => rfl

/-- Settles O24: the frame of each shape a command can end in. -/
theorem whichCommandWritesWhat : Obligations.WhichCommandWritesWhat := by
  intro i s t h
  have hs := exec_shape_of_next h
  exact ⟨hs.hostSideSame, hs.controlSame, hs.rp_same, hs.d_same, hs.pktSame, fun _ => hs.readX_same⟩

/-! ## Which warnings a command sets -/

/-- Of the shapes, only a latch whose verdict is advisory warns that the server is not synchronised. -/
theorem ExecShape.wUnsync_iff {i : Instr} {s t : State} (h : ExecShape i s t) :
    t.block.status.wUnsync = true ↔
      (i = .dec ∧ t.block.status.err = .ok ∧ (s.pktByte 0).toNat / 64 = 3) := by
  rw [← headerLI_eq_three]
  cases h with
  | status c hi => simp [hi]
  | register rd v n _ hi => simp [hi]
  | duration r d hr => rcases hr with rfl | rfl | rfl | rfl <;> simp
  | packet m hp => rcases hp with ⟨r, v, o, rfl⟩ | ⟨r, k, rfl⟩ <;> simp
  | refused c hi hc => rcases hc with ⟨rfl, -⟩ | ⟨rfl, -⟩ <;> simp
  | latched hi _ _ c u hv =>
    cases hv with
    | kod _ => simp
    | unsync _ _ _ => simp
    | advisory _ h2 _ => simp [hi, h2]
    | accepted _ h2 => simp [h2]

/-- Only a DELAY whose exact delay is negative warns of it. -/
theorem ExecShape.delay_negative {i : Instr} {s t : State} (h : ExecShape i s t)
    (hn : t.block.status.wNegdly = true) :
    ∃ rd r1 r2 r3 r4, i = .delay rd r1 r2 r3 r4
      ∧ exactDelay (s.readX r1) (s.readX r2) (s.readX r3) (s.readX r4) < 0 := by
  cases h with
  | register rd v n _ _ hneg => exact ⟨rd, hneg hn⟩
  | _ => exact absurd hn (by simp)

/-- A DELAY whose exact delay is negative warns of it. -/
theorem exec_delay_warns {rd r1 r2 r3 r4 : Reg} {s t : State}
    (h : exec (.delay rd r1 r2 r3 r4) s = .next t)
    (hneg : exactDelay (s.readX r1) (s.readX r2) (s.readX r3) (s.readX r4) < 0) :
    t.block.status.wNegdly = true := by
  rw [exec_delay, State.finishDelay_negative s rd _ hneg] at h
  cases h
  rfl

/-- Settles O23: the shape a command ends in fixes its warnings and whether RPV stays. -/
theorem everyCommandCompletesWithStatus : Obligations.EveryCommandCompletesWithStatus := by
  intro i s
  obtain ⟨t, ht, hs⟩ := exec_shape i s
  refine ⟨t, ht, hs.wUnsync_iff, ⟨hs.delay_negative, ?_⟩, hs.rpv_same⟩
  rintro ⟨rd, r1, r2, r3, r4, rfl, hneg⟩
  exact exec_delay_warns ht hneg

/-! ## What commands do not see -/

/-- The update `f` of the state is hidden from the operations that commands other than DEC are made of: their
operands read as without it, their writes commute with it, and the end of a command leaves `g` of it. CTRL
is not among the operands. -/
structure Hidden (f g : State → State) : Prop where
  readX : ∀ s r, (f s).readX r = s.readX r
  d : ∀ s, (f s).block.d = s.block.d
  rp : ∀ s, (f s).block.rp = s.block.rp
  pkt : ∀ s, (f s).block.pkt = s.block.pkt
  writeX : ∀ s rd v, (f s).writeX rd v = f (s.writeX rd v)
  setD : ∀ s d, (f s).setD d = f (s.setD d)
  setPkt : ∀ s m, (f s).setPkt m = f (s.setPkt m)
  endCommand : ∀ s c u n, (f s).endCommand c u n = g (s.endCommand c u n)

/-- ERR and both warnings are written at the end of every command; of a STATUS put before it only RPV
is left (10_state.md R24). -/
theorem hidden_setStatus (st : Status) : Hidden (·.setStatus st) (·.setRpv st.rpv) :=
  ⟨fun _ _ => rfl, fun _ => rfl, fun _ => rfl, fun _ => rfl, fun _ _ _ => rfl, fun _ _ => rfl,
    fun _ _ => rfl, fun _ _ _ _ => rfl⟩

theorem hidden_setCtrl (c : Ctrl) : Hidden (·.setCtrl c) (·.setCtrl c) :=
  ⟨fun _ _ => rfl, fun _ => rfl, fun _ => rfl, fun _ => rfl, fun _ _ _ => rfl, fun _ _ => rfl,
    fun _ _ => rfl, fun _ _ _ _ => rfl⟩

section

variable {f g : State → State} (hf : Hidden f g) {s t : State}

include hf

theorem Hidden.finishX_next {rd : Reg} {v : DWord} (h : s.finishX rd v = .next t) :
    (f s).finishX rd v = .next (g t) := by
  cases h
  rw [State.finishX_next, hf.writeX, hf.endCommand]
  rfl

theorem Hidden.finishD_next {d : Duration} (h : s.finishD d = .next t) : (f s).finishD d = .next (g t) := by
  cases h
  rw [State.finishD_next, hf.setD, hf.endCommand]
  rfl

theorem Hidden.finishConversion_next {rd : Reg} {o : Option DWord}
    (h : s.finishConversion rd o = .next t) : (f s).finishConversion rd o = .next (g t) := by
  cases o with
  | some v => exact hf.finishX_next h
  | none =>
    cases h
    rw [State.finishConversion_none, hf.endCommand]
    rfl

theorem Hidden.finishDelay_next {rd : Reg} {d : Int} (h : s.finishDelay rd d = .next t) :
    (f s).finishDelay rd d = .next (g t) := by
  by_cases hd : d < 0
  · rw [State.finishDelay_negative _ _ _ hd] at h ⊢
    cases h
    rw [hf.writeX, hf.endCommand]
  · rw [State.finishDelay_exact _ _ _ (by omega)] at h ⊢
    cases h
    rw [hf.writeX, hf.endCommand]

theorem Hidden.finish_setPkt (m : Memory) :
    ((f s).setPkt m).finish = g (s.setPkt m).finish := by
  rw [hf.setPkt, State.finish_eq, State.finish_eq, hf.endCommand]

theorem Hidden.execRpget_next {rd : Reg} {sel : BitVec 4} (h : execRpget rd sel s = .next t) :
    execRpget rd sel (f s) = .next (g t) := by
  unfold execRpget at h ⊢
  cases hk : replyOf sel.toNat with
  | some k =>
    rw [hk] at h
    rw [hf.rp]
    exact hf.finishX_next h
  | none =>
    rw [hk] at h
    cases h
    exact congrArg _ (hf.endCommand s .illegal false false)

end

/-- TS2D reads ERA_MODE and ERA of CTRL and nothing else of it. -/
theorem durationOfTimestamp_congr {c c' : Ctrl} (h : c'.eraMode = c.eraMode ∧ c'.era = c.era)
    (v : DWord) : durationOfTimestamp c' v = durationOfTimestamp c v := by
  simp only [durationOfTimestamp, Ctrl.eraOf, h.1, h.2]

theorem Ctrl.inWindow_congr {c c' : Ctrl} (h : c'.eraMode = c.eraMode ∧ c'.era = c.era)
    (n : Nat) : c'.inWindow n = c.inWindow n := by
  unfold Ctrl.inWindow
  rw [h.1, h.2]

/-- D2TS reads ERA_MODE and ERA of CTRL and nothing else of it. -/
theorem timestampOf_congr {c c' : Ctrl} (h : c'.eraMode = c.eraMode ∧ c'.era = c.era)
    (d : Duration) : timestampOf c' d = timestampOf c d := by
  unfold timestampOf
  rw [Ctrl.inWindow_congr h]

/-- A command other than DEC does not see a hidden update, TS2D and D2TS provided it keeps the era. -/
theorem Hidden.exec_next {f g : State → State} (hf : Hidden f g) {i : Instr} {s t : State}
    (hdec : i ≠ .dec)
    (hera : (∃ r, i = .ts2d r ∨ i = .d2ts r) →
      (f s).block.ctrl.eraMode = s.block.ctrl.eraMode ∧ (f s).block.ctrl.era = s.block.ctrl.era)
    (h : exec i s = .next t) : exec i (f s) = .next (g t) := by
  cases i with
  | nop =>
    cases h
    exact congrArg _ (hf.endCommand s .ok false false)
  | enc r v m =>
    cases h
    rw [exec, execEnc, hf.readX, hf.finish_setPkt]
  | dec => exact absurd rfl hdec
  | setts r k =>
    cases h
    rw [exec, execSetts, hf.readX, hf.pkt, hf.finish_setPkt]
  | getts rd k =>
    rw [exec, execGetts, hf.pkt]
    exact hf.finishX_next h
  | rpget rd sel => exact hf.execRpget_next h
  | ts2d r =>
    rw [exec, execTs2d, hf.readX, durationOfTimestamp_congr (hera ⟨r, .inl rfl⟩)]
    exact hf.finishD_next h
  | u2d r =>
    rw [exec, execU2d, hf.readX]
    exact hf.finishD_next h
  | s2d r =>
    rw [exec, execS2d, hf.readX]
    exact hf.finishD_next h
  | h2d r =>
    rw [exec, execH2d, hf.readX]
    exact hf.finishD_next h
  | d2ts rd =>
    rw [exec, execD2ts, hf.d, timestampOf_congr (hera ⟨rd, .inr rfl⟩)]
    exact hf.finishConversion_next h
  | d2u rd =>
    rw [exec, execD2u, hf.d]
    exact hf.finishConversion_next h
  | d2s rd =>
    rw [exec, execD2s, hf.d]
    exact hf.finishConversion_next h
  | d2h rd =>
    rw [exec, execD2h, hf.d]
    exact hf.finishConversion_next h
  | tsub rd a b =>
    rw [exec, execTsub, hf.readX, hf.readX]
    exact hf.finishX_next h
  | offset rd a b c d =>
    rw [exec, execOffset, hf.readX, hf.readX, hf.readX, hf.readX]
    exact hf.finishX_next h
  | delay rd a b c d =>
    rw [exec, execDelay, hf.readX, hf.readX, hf.readX, hf.readX]
    exact hf.finishDelay_next h

/-! ## DEC -/

/-- DEC writes RPV too, so that nothing is left of a STATUS put before it. -/
theorem execDec_setStatus (s : State) (st : Status) : execDec (s.setStatus st) = execDec s := rfl

/-- Settles O26: DEC ends alike; every other command leaves only the RPV it was given. -/
theorem commandsDoNotReadStatus : Obligations.CommandsDoNotReadStatus := by
  intro i s t st h
  by_cases hi : i = .dec
  · subst hi
    exact ⟨t, (execDec_setStatus s st).trans h, rfl⟩
  · exact ⟨t.setRpv st.rpv, (hidden_setStatus st).exec_next hi (fun _ => ⟨rfl, rfl⟩) h, rfl⟩

/-- The checks of a latched reply read UNSYNC_FATAL of CTRL and nothing else of it. -/
theorem checkReply_setCtrl (s : State) (c : Ctrl) (hc : c.unsyncFatal = s.block.ctrl.unsyncFatal) :
    (s.setCtrl c).checkReply = s.checkReply.setCtrl c := by
  have hb : ∀ a, (s.setCtrl c).pktByte a = s.pktByte a := fun _ => rfl
  unfold State.checkReply
  rw [hb, hb, State.setCtrl_ctrl, hc]
  split
  · rfl
  · split
    · split <;> rfl
    · rfl

theorem execDec_setCtrl {s t : State} (c : Ctrl) (hc : c.unsyncFatal = s.block.ctrl.unsyncFatal)
    (h : execDec s = .next t) : execDec (s.setCtrl c) = .next (t.setCtrl c) := by
  by_cases hl : s.block.rxLen.toNat = 48
  · cases hm : modeAccepted (headerMode (s.pktByte 0))
    · rw [execDec_invmode s hl hm] at h
      cases h
      exact execDec_invmode (s.setCtrl c) hl hm
    · rw [execDec_latch s hl hm] at h
      cases h
      exact (execDec_latch (s.setCtrl c) hl hm).trans
        (congrArg _ (checkReply_setCtrl s.latch c hc))
  · rw [execDec_malformed s hl] at h
    cases h
    exact execDec_malformed (s.setCtrl c) hl

/-- Settles O27: a CTRL put before a command other than DEC is hidden from it, but for the era. -/
theorem whichCommandReadsCtrl : Obligations.WhichCommandReadsCtrl := by
  intro i s t c h hunsync hera
  by_cases hi : i = .dec
  · subst hi
    exact execDec_setCtrl c (hunsync rfl) h
  · exact (hidden_setCtrl c).exec_next hi hera h

end Sys2Proof.Machine
end

section
/-! SUPPORT. STATUS as the bus reads it, and a word read back after a bus write of it (10_state.md R22, R23,
R25, R30; 20_memory.md R62 to R64). -/

namespace Sys2Proof.Machine

/-! ## The layout of STATUS -/

theorem codeNum_le_six (c : Code) : (codeNum c).toNat ≤ 6 := by cases c <;> decide

/-- Settles O16: STATUS as a number, and the code in it at most 6. -/
theorem statusWordLayout : Obligations.StatusWordLayout := by
  refine ⟨⟨rfl, rfl, rfl, rfl, rfl, rfl, rfl⟩, fun b => ?_⟩
  have hword : (b.readWord .status).toNat = _ := toNat_statusWord b.status
  have herr := codeNum_le_six b.status.err
  have hu := b.status.wUnsync.toNat_lt
  have hn := b.status.wNegdly.toNat_lt
  have hr := b.status.rpv.toNat_lt
  rw [hword]
  exact ⟨by omega, by omega, by omega, by omega, by omega⟩

/-! ## A word read back -/

/-- The step on a legal write to a word that is not CMD. -/
theorem step_store (s : State) (w : BusWord) (v : Word) (rest : List HostEvent)
    (h : s.pending = .write 32 (s.base + w.offset) v :: rest) (hw : w ≠ .cmd) :
    step s = .next { s with pending := rest, block := s.block.writeWord w v } :=
  (step_write s w v rest h).trans (hostWrite_store w v _ hw)

theorem toNat_getLsbD {n : Nat} (x : BitVec n) (i : Nat) :
    (x.getLsbD i).toNat = x.toNat / 2 ^ i % 2 :=
  Nat.toNat_testBit x.toNat i

/-- CTRL keeps bits 15:8 and 1:0 of a bus write (10_state.md R25). -/
theorem readWord_writeWord_ctrl (b : Block) (v : Word) :
    ((b.writeWord .ctrl v).readWord .ctrl).toNat
      = v.toNat / 2 ^ 8 % 2 ^ 8 * 2 ^ 8 + v.toNat % 4 := by
  show (ctrlOfWord v).word.toNat = _
  rw [toNat_ctrlWord]
  simp only [ctrlOfWord, toNat_field, toNat_getLsbD]
  omega

/-- D_NEG keeps bit 0 of a bus write (10_state.md R30). -/
theorem readWord_writeWord_dNeg (b : Block) (v : Word) :
    ((b.writeWord .dNeg v).readWord .dNeg).toNat = v.toNat % 2 := by
  rw [toNat_dNegWord]
  show (v.getLsbD 0).toNat = _
  rw [toNat_getLsbD, Nat.pow_zero, Nat.div_one]

theorem readWord_writeWord_xHi (b : Block) {r : Reg} (hr : r ≠ .x0) (v : Word) :
    (b.writeWord (.xHi r) v).readWord (.xHi r) = v := by
  simp only [Block.writeWord, Block.readWord, GRegs.read_write_same _ _ _ hr, hiHalf_join]

theorem readWord_writeWord_xLo (b : Block) {r : Reg} (hr : r ≠ .x0) (v : Word) :
    (b.writeWord (.xLo r) v).readWord (.xLo r) = v := by
  simp only [Block.writeWord, Block.readWord, GRegs.read_write_same _ _ _ hr, loHalf_join]

theorem readWord_writeWord_pkt (b : Block) (hwf : b.pkt.wf = true) (j : Fin 12) (v : Word) :
    (b.writeWord (.pkt j) v).readWord (.pkt j) = v :=
  Memory.read32_write32 b.pkt hwf _ v (pktWordOffset_bound j)

/-- Settles O17: the write is stored, and each word reads back what it keeps of it. -/
theorem writtenWordReadsBack : Obligations.WrittenWordReadsBack := by
  intro s w v rest hwf hp
  have hstep := step_store s w v rest hp
  refine ⟨?_, ?_, ?_⟩
  · rintro rfl
    exact ⟨_, hstep nofun, readWord_writeWord_ctrl s.block v⟩
  · rintro rfl
    exact ⟨_, hstep nofun, readWord_writeWord_dNeg s.block v⟩
  · rintro (rfl | rfl | rfl | rfl | ⟨j, rfl⟩ | ⟨r, hr, rfl | rfl⟩)
    · exact ⟨_, hstep nofun, rfl⟩
    · exact ⟨_, hstep nofun, rfl⟩
    · exact ⟨_, hstep nofun, hiHalf_join v _⟩
    · exact ⟨_, hstep nofun, loHalf_join _ v⟩
    · exact ⟨_, hstep nofun, readWord_writeWord_pkt s.block hwf j v⟩
    · exact ⟨_, hstep nofun, readWord_writeWord_xHi s.block hr v⟩
    · exact ⟨_, hstep nofun, readWord_writeWord_xLo s.block hr v⟩

end Sys2Proof.Machine
end

section
/-! SUPPORT. The address map read backwards, and the host's run: which accesses a step performs, which one
stops it, and what is left of the host's queue (20_memory.md R60, R61, R72). -/

namespace Sys2Proof.Machine

/-! ## The address map -/

theorem fixedWordAt_some {n : Nat} {w : BusWord} (h : fixedWordAt n = some w) : w.offset = 4 * n := by
  unfold fixedWordAt at h
  split at h <;> cases h <;> rfl

theorem fixedWordAt_none {n : Nat} : fixedWordAt n = none ↔ 10 ≤ n := by
  constructor
  · intro h
    by_contra hn
    interval_cases n <;> cases h
  · intro h
    obtain ⟨m, rfl⟩ := Nat.exists_eq_add_of_le' h
    rfl

theorem replyOf_some {n : Nat} {k : ReplyReg} (h : replyOf n = some k) : replyNum k = n := by
  unfold replyOf at h
  split at h <;> cases h <;> rfl

theorem replyOf_none {n : Nat} : replyOf n = none ↔ 13 ≤ n := by
  constructor
  · intro h
    by_contra hn
    interval_cases n <;> cases h
  · intro h
    obtain ⟨m, rfl⟩ := Nat.exists_eq_add_of_le' h
    rfl

theorem toNat_regNum_regOf {n : Nat} (h : n < 8) : (regNum (regOf (BitVec.ofNat 3 n))).toNat = n := by
  rw [regNum_regOf, BitVec.toNat_ofNat]
  omega

/-- No word stands at two offsets, and no two words at one. -/
theorem offset_of_busWordAt {off : Nat} {w : BusWord} (h4 : off % 4 = 0) (h : busWordAt off = some w) :
    w.offset = off := by
  simp only [busWordAt] at h
  split at h
  · rw [fixedWordAt_some h]
    omega
  · split at h
    · have hr := toNat_regNum_regOf (n := (off / 4 - 16) / 2) (by omega)
      split at h <;> cases h <;> rw [BusWord.offset, hr] <;> omega
    · split at h
      · obtain ⟨k, hk, hw⟩ := Option.map_eq_some_iff.1 h
        have hn := replyOf_some hk
        split at hw <;> subst hw <;> rw [BusWord.offset, hn] <;> omega
      · split at h
        · cases h
          show 0x100 + 4 * (off / 4 - 64) = off
          omega
        · cases h

theorem busWordAt_none {off : Nat} (h4 : off % 4 = 0) :
    busWordAt off = none
      ↔ (0x028 ≤ off ∧ off ≤ 0x03C) ∨ (0x0E8 ≤ off ∧ off ≤ 0x0FC) ∨ 0x130 ≤ off := by
  simp only [busWordAt]
  split
  · rw [fixedWordAt_none]
    omega
  · split
    · simp only [reduceCtorEq, false_iff]
      omega
    · split
      · rw [Option.map_eq_none_iff, replyOf_none]
        omega
      · split
        · simp only [reduceCtorEq, false_iff]
          omega
        · simp only [true_iff]
          omega

/-- Settles O13: `busWordAt` and `BusWord.offset` are inverse to each other. -/
theorem addressMapIsExact : Obligations.AddressMapIsExact := by
  refine ⟨fun off w => ⟨?_, ?_⟩, fun off => busWordAt_none,
    ⟨rfl, rfl, rfl, rfl, rfl, rfl, rfl, rfl, rfl, rfl⟩, fun _ => ⟨rfl, rfl⟩, fun _ => ⟨rfl, rfl⟩,
    fun _ => rfl⟩
  · rintro ⟨h4, h⟩
    exact (offset_of_busWordAt h4 h).symm
  · rintro rfl
    exact ⟨(offset_mapped w).1, busWordAt_offset w⟩

/-! ## Legal and illegal accesses -/

theorem hostWrite_next (w : BusWord) (v : Word) (s : State) : ∃ t, hostWrite w v s = .next t := by
  by_cases hw : w = .cmd
  · subst hw
    obtain ⟨t, ht, -⟩ := runCommand_next v s
    exact ⟨t, (hostWrite_cmd v s).trans ht⟩
  · exact ⟨_, hostWrite_store w v s hw⟩

/-- A legal event is performed, whatever its data (40_control.md R130). -/
theorem hostEvent_legal {e : HostEvent} {s : State} (h : e.Legal s.base) :
    ∃ t, hostEvent e s = .next t := by
  cases e with
  | reset => exact ⟨_, rfl⟩
  | read bits addr =>
    obtain ⟨rfl, w, rfl⟩ := h
    simp only [hostEvent, locate_offset]
    exact ⟨_, rfl⟩
  | write bits addr v =>
    obtain ⟨rfl, w, rfl⟩ := h
    simp only [hostEvent, locate_offset]
    exact hostWrite_next w v s

/-- Inside the window an access lands on the word it names or is a bus error (20_memory.md R61). -/
theorem locate_fault {base bits addr : Nat} (hin : base ≤ addr ∧ addr < base + 4096)
    (hill : ¬ (bits = 32 ∧ ∃ w : BusWord, addr = base + w.offset)) :
    ∃ f, locate base bits addr = .fault f := by
  cases h : locate base bits addr with
  | fault f => exact ⟨f, rfl⟩
  | word w =>
    obtain ⟨hbits, hle, h4, hw⟩ := locate_word h
    have hoff := offset_of_busWordAt h4 hw
    exact absurd ⟨hbits, w, by omega⟩ hill
  | refused r =>
    unfold locate at h
    rw [if_neg (by simp only [Config.windowBytes]; omega)] at h
    split at h
    · cases h
    · split at h
      · cases h
      · split at h <;> cases h

theorem hostEvent_fault_iff {e : HostEvent} {s : State} (hin : e.InWindow s.base) :
    (∃ f, hostEvent e s = .fault f) ↔ ¬ e.Legal s.base := by
  constructor
  · rintro ⟨f, hf⟩ hlegal
    obtain ⟨t, ht⟩ := hostEvent_legal hlegal
    rw [ht] at hf
    cases hf
  · intro hill
    cases e with
    | reset => exact hin.elim
    | read bits addr =>
      obtain ⟨f, hf⟩ := locate_fault hin hill
      simp only [hostEvent, hf]
      exact ⟨f, rfl⟩
    | write bits addr v =>
      obtain ⟨f, hf⟩ := locate_fault hin hill
      simp only [hostEvent, hf]
      exact ⟨f, rfl⟩

theorem step_pending {s : State} {e : HostEvent} {rest : List HostEvent} (h : s.pending = e :: rest) :
    step s = hostEvent e { s with pending := rest } := by
  simp only [step, h]

/-- Settles O14: the step on a waiting event is that event, which faults exactly when it is illegal. -/
theorem busErrorExactlyWhenIllegal : Obligations.BusErrorExactlyWhenIllegal := by
  intro s e rest hp hin
  rw [step_pending hp]
  exact hostEvent_fault_iff (s := { s with pending := rest }) hin

/-! ## The host's queue -/

theorem runCommand_hostSideSame {w : Word} {s t : State} (h : runCommand w s = .next t) :
    HostSideSame s t := by
  obtain ⟨u, hu, hshape⟩ := runCommand_next w s
  obtain rfl : u = t := by rw [hu] at h; cases h; rfl
  rcases hshape with ⟨i, -, hi⟩ | rfl
  · exact hi.hostSideSame
  · exact ⟨rfl, rfl, rfl⟩

/-- Whatever a step does, it takes the oldest event and keeps the window's place. -/
theorem StepShape.takes_oldest {s t : State} (h : StepShape s t) :
    t.pending = s.pending.tail ∧ t.base = s.base := by
  cases h with
  | idle hp => exact ⟨by rw [hp]; rfl, rfl⟩
  | reset rest hp => exact ⟨by rw [hp]; rfl, rfl⟩
  | read _ _ rest hp _ _ => exact ⟨by rw [hp]; rfl, rfl⟩
  | store _ _ _ rest hp _ _ _ => exact ⟨by rw [hp]; rfl, rfl⟩
  | command _ _ v rest hp _ _ ht =>
    obtain ⟨hbase, hpending, -⟩ := runCommand_hostSideSame ht
    exact ⟨by rw [hpending, hp]; rfl, hbase⟩

/-- Settles O12: from the shapes of a step. -/
theorem oneEventAtATime : Obligations.OneEventAtATime := by
  intro s t e rest hp h
  obtain ⟨hpending, hbase⟩ := (step_shape_of_next h).takes_oldest
  exact ⟨by rw [hpending, hp]; rfl, hbase⟩

/-! ## A legal host -/

theorem State.Orderly.step_next {s : State} (h : s.Orderly) : ∃ t, step s = .next t := by
  cases hp : s.pending with
  | nil => exact ⟨s, by simp only [step, hp]⟩
  | cons e rest =>
    rw [step_pending hp]
    have he : e.Legal s.base := h e (by simp [hp])
    exact hostEvent_legal (s := { s with pending := rest }) he

theorem State.Orderly.of_step {s t : State} (h : s.Orderly) (ht : step s = .next t) : t.Orderly := by
  obtain ⟨hpending, hbase⟩ := (step_shape_of_next ht).takes_oldest
  intro e he
  rw [hpending] at he
  rw [hbase]
  exact h e (List.mem_of_mem_tail he)

theorem runFor_succ {s t : State} (k : Nat) (h : step s = .next t) : runFor (k + 1) s = runFor k t := by
  simp only [runFor, h]

/-- Settles O60, by induction on the steps: a legal event is performed, and the step keeps the invariant
and the legality of the rest. -/
theorem legalHostIsNeverStopped : Obligations.LegalHostIsNeverStopped := by
  intro k
  induction k with
  | zero => exact fun s hinv hord => ⟨s, rfl, hinv, hord, rfl⟩
  | succ k ih =>
    intro s hinv hord
    obtain ⟨u, hu⟩ := hord.step_next
    have hpending := (step_shape_of_next hu).takes_oldest.1
    obtain ⟨t, ht, htinv, htord, htp⟩ := ih u (stepKeepsInvariant s u hinv hu) (hord.of_step hu)
    refine ⟨t, (runFor_succ k hu).trans ht, htinv, htord, ?_⟩
    rw [htp, hpending, List.drop_tail]

end Sys2Proof.Machine
end

section
/-! SUPPORT. What a bus read returns and what a bus write stores, word by word: every other word reads as
before, the same write again changes nothing, and what the halves and the packet words hold
(20_memory.md R62 to R64, R71). -/

namespace Sys2Proof.Machine

/-! ## Reads -/

/-- Settles O15: a read only records the word, and each word is its field as a number. -/
theorem busReadReturnsTheWord : Obligations.BusReadReturnsTheWord := by
  refine ⟨fun s w rest hp => ⟨_, step_read s w rest hp, rfl, rfl, rfl, rfl⟩, fun b => ?_⟩
  exact ⟨rfl, rfl, rfl, toNat_ctrlWord _, rfl, toNat_dNegWord b, rfl, toNat_hiHalf _, toNat_loHalf _,
    fun _ => ⟨toNat_hiHalf _, toNat_loHalf _⟩, fun _ => ⟨toNat_hiHalf _, toNat_loHalf _⟩⟩

/-! ## Writes of half a register -/

/-- A write that keeps a view of its register keeps that view of every register; a write to X0 is
discarded (10_state.md R20). -/
theorem GRegs.view_read_write {α : Type} (f : DWord → α) {g : GRegs} {r : Reg} {v : DWord}
    (h : f v = f (g.read r)) (q : Reg) : f ((g.write r v).read q) = f (g.read q) := by
  by_cases hq : q = r
  · subst hq
    by_cases h0 : q = .x0
    · subst h0
      rfl
    · rw [GRegs.read_write_same _ _ _ h0, h]
  · rw [GRegs.read_write_other _ _ _ _ hq]

theorem GRegs.loHalf_write_hi (g : GRegs) (r q : Reg) (v : Word) :
    loHalf ((g.write r (joinHalves v (loHalf (g.read r)))).read q) = loHalf (g.read q) :=
  GRegs.view_read_write loHalf (loHalf_join _ _) q

theorem GRegs.hiHalf_write_lo (g : GRegs) (r q : Reg) (v : Word) :
    hiHalf ((g.write r (joinHalves (hiHalf (g.read r)) v)).read q) = hiHalf (g.read q) :=
  GRegs.view_read_write hiHalf (hiHalf_join _ _) q

/-- Settles O18: the stored register is the new half joined with the old other half. -/
theorem halfRegisterWrite : Obligations.HalfRegisterWrite := by
  intro s r v rest hr
  constructor
  · intro hp
    refine ⟨_, step_store s (.xHi r) v rest hp nofun, fun q => GRegs.read_write_other _ r q _, ?_⟩
    show ((s.block.x.write r (joinHalves v (loHalf (s.readX r)))).read r).toNat = _
    rw [GRegs.read_write_same _ _ _ hr, toNat_joinHalves, toNat_loHalf]
  · intro hp
    refine ⟨_, step_store s (.xLo r) v rest hp nofun, fun q => GRegs.read_write_other _ r q _, ?_⟩
    show ((s.block.x.write r (joinHalves (hiHalf (s.readX r)) v)).read r).toNat = _
    rw [GRegs.read_write_same _ _ _ hr, toNat_joinHalves, toNat_hiHalf]

/-! ## Read-only words -/

/-- Settles O19: such a word stores nothing. -/
theorem readOnlyWordsIgnoreWrites : Obligations.ReadOnlyWordsIgnoreWrites := by
  intro s w v rest hw hp
  have hstep := step_store s w v rest hp
  rcases hw with rfl | rfl | rfl | rfl | rfl | ⟨k, rfl | rfl⟩ <;> exact hstep nofun

/-! ## Other words -/

theorem readWord_writeWord_pkt_other (b : Block) (hwf : b.pkt.wf = true) {j k : Fin 12} (hkj : k ≠ j)
    (v : Word) : (b.writeWord (.pkt j) v).readWord (.pkt k) = b.readWord (.pkt k) := by
  refine Memory.read32_write32_other b.pkt hwf _ _ v (pktWordOffset_bound j) ?_
  unfold pktWordOffset
  omega

/-- A write changes its own word only: by the word written, then by the word read. -/
theorem readWord_writeWord_other (b : Block) (hwf : b.pkt.wf = true) {w u : BusWord} (hu : u ≠ w)
    (v : Word) : (b.writeWord w v).readWord u = b.readWord u := by
  cases w with
  | ctrl => cases u with
    | ctrl => exact absurd rfl hu
    | _ => rfl
  | rxLen => cases u with
    | rxLen => exact absurd rfl hu
    | _ => rfl
  | dNeg => cases u with
    | dNeg => exact absurd rfl hu
    | _ => rfl
  | dNanos => cases u with
    | dNanos => exact absurd rfl hu
    | _ => rfl
  | dSecsHi => cases u with
    | dSecsHi => exact absurd rfl hu
    | dSecsLo => exact loHalf_join _ _
    | _ => rfl
  | dSecsLo => cases u with
    | dSecsLo => exact absurd rfl hu
    | dSecsHi => exact hiHalf_join _ _
    | _ => rfl
  | xHi r => cases u with
    | xHi q =>
      have hq : q ≠ r := fun h => hu (congrArg _ h)
      exact congrArg hiHalf (GRegs.read_write_other _ r q _ hq)
    | xLo q => exact GRegs.loHalf_write_hi b.x r q v
    | _ => rfl
  | xLo r => cases u with
    | xHi q => exact GRegs.hiHalf_write_lo b.x r q v
    | xLo q =>
      have hq : q ≠ r := fun h => hu (congrArg _ h)
      exact congrArg loHalf (GRegs.read_write_other _ r q _ hq)
    | _ => rfl
  | pkt j => cases u with
    | pkt k => exact readWord_writeWord_pkt_other b hwf (fun h => hu (congrArg _ h)) v
    | _ => rfl
  | _ => rfl

/-- Settles O20: the step stores the word, and the block reads as before elsewhere. -/
theorem busWriteChangesOnlyItsWord : Obligations.BusWriteChangesOnlyItsWord := by
  intro s w u v rest hwf hw hu hp
  exact ⟨_, step_store s w v rest hp hw, readWord_writeWord_other s.block hwf hu v⟩

/-! ## The same write again -/

theorem GRegs.write_write (g : GRegs) (r : Reg) (v v' : DWord) : (g.write r v).write r v' = g.write r v' := by
  cases r <;> rfl

/-- Storing the byte that is there changes nothing. -/
theorem Memory.write_of_read (m : Memory) (h : m.wf = true) {a : Nat} {v : Byte} (ha : a < 48)
    (hv : m.read a = v) : m.write a v = m := by
  refine Memory.eq_of_read (lo := 0) _ _ (Memory.write_wf m h a v ha) h fun b => ?_
  by_cases hb : b = a
  · rw [hb, Memory.read_write_same m h, hv]
  · rw [Memory.read_write_other m h a b v hb]

theorem Memory.write32_write32 (m : Memory) (h : m.wf = true) (a : Nat) (v : Word) (ha : a + 4 ≤ 48) :
    (m.write32 a v).write32 a v = m.write32 a v := by
  obtain ⟨h0, h1, h2, h3⟩ := Memory.read_write32_bytes m h a v ha
  have hwf := Memory.write32_wf m h a v ha
  rw [Memory.write32, Memory.write_of_read _ hwf (by omega) h0, Memory.write_of_read _ hwf (by omega) h1,
    Memory.write_of_read _ hwf (by omega) h2, Memory.write_of_read _ hwf (by omega) h3]

/-- Writing a word again leaves the block: the half or byte that the second write reads is the kept one. -/
theorem writeWord_writeWord (b : Block) (hwf : b.pkt.wf = true) (w : BusWord) (v : Word) :
    (b.writeWord w v).writeWord w v = b.writeWord w v := by
  cases w with
  | dSecsHi => simp only [Block.writeWord, loHalf_join]
  | dSecsLo => simp only [Block.writeWord, hiHalf_join]
  | xHi r => simp only [Block.writeWord, GRegs.write_write, GRegs.loHalf_write_hi]
  | xLo r => simp only [Block.writeWord, GRegs.write_write, GRegs.hiHalf_write_lo]
  | pkt j => simp only [Block.writeWord, Memory.write32_write32 _ hwf _ _ (pktWordOffset_bound j)]
  | _ => rfl

/-- Settles O21: both steps store, and the second store changes nothing. -/
theorem repeatedWriteIsOneWrite : Obligations.RepeatedWriteIsOneWrite := by
  intro s w v rest hwf hw hp
  have hfirst := step_store s w v _ hp hw
  exact ⟨_, _, hfirst, step_store _ w v rest rfl hw, writeWord_writeWord s.block hwf w v⟩

/-! ## Packet words -/

/-- Settles O22: `MemRead` and `MemWrite` of four bytes, as numbers. -/
theorem packetWordPacking : Obligations.PacketWordPacking := by
  refine ⟨fun s j => toNat_read32 s.block.pkt (4 * j.val), fun s j v rest hwf hp => ?_⟩
  have hj : 4 * j.val + 4 ≤ 48 := pktWordOffset_bound j
  obtain ⟨h0, h1, h2, h3⟩ := Memory.read_write32_bytes s.block.pkt hwf _ v hj
  have hv := v.isLt
  refine ⟨_, step_store s (.pkt j) v rest hp nofun, ?_, ?_, ?_, ?_,
    fun a => Memory.read_write32_other s.block.pkt hwf _ a v hj⟩
  · refine (congrArg BitVec.toNat h0).trans ?_
    rw [toNat_field]
    omega
  · exact (congrArg BitVec.toNat h1).trans (toNat_field v 16 8)
  · exact (congrArg BitVec.toNat h2).trans (toNat_field v 8 8)
  · refine (congrArg BitVec.toNat h3).trans ?_
    rw [toNat_field]
    omega

end Sys2Proof.Machine
end

section
/-! SUPPORT. The command encoding: what the fields of a word and its row say of each other, what the decoder
answers, and that decoder and encoder are inverse to each other (30_encoding.md R101 to R107). -/

namespace Sys2Proof

/-! ## Format R -/

/-- Settles O1: a word is its fields packed, and a packed word reads its fields back. -/
theorem formatRFields : Obligations.FormatRFields := by
  refine ⟨fun w => ?_, fun imm rs4 rs3 rs2 rs1 rd op => ?_⟩
  · rw [← toNat_packR, packR_fields]
  · exact ⟨fieldIMM_packR .., fieldRS4_packR .., fieldRS3_packR .., fieldRS2_packR .., fieldRS1_packR ..,
      fieldRD_packR .., fieldOP_packR ..⟩

/-! ## Rows -/

theorem code_injective {o p : Opcode} (h : o.code = p.code) : o = p := by
  have hs : some o = some p := by rw [← ofCode_code, h, ofCode_code]
  exact Option.some.inj hs

theorem selects_iff (o : Opcode) (w : Word) : o.selects w = true ↔ w &&& o.mask = o.matchWord :=
  decide_eq_true_iff

/-- A row's match word is its opcode, with every other field 0 (30_encoding.md R105). -/
theorem matchWord_eq_packR (o : Opcode) : o.matchWord = packR 0 0 0 0 0 0 o.code := by
  cases o <;> rfl

/-- Every mask covers bits 7:0 (30_encoding.md R105). -/
theorem fieldOP_mask (o : Opcode) : fieldOP o.mask = BitVec.allOnes 8 := by
  cases o <;> rfl

/-- A word that matches a row carries the row's opcode. -/
theorem fieldOP_of_match {o : Opcode} {w : Word} (h : w &&& o.mask = o.matchWord) : fieldOP w = o.code := by
  have hop := congrArg fieldOP h
  rwa [fieldOP_and, fieldOP_mask, BitVec.and_allOnes, matchWord_eq_packR, fieldOP_packR] at hop

/-- At most one row matches any word (30_encoding.md R105). -/
theorem row_unique {o p : Opcode} {w : Word} (ho : w &&& o.mask = o.matchWord)
    (hp : w &&& p.mask = p.matchWord) : o = p :=
  code_injective ((fieldOP_of_match ho).symm.trans (fieldOP_of_match hp))

/-! ## What the decoder answers -/

/-- A word that matches a row is read as a command of that row. -/
theorem decode_of_match {o : Opcode} {w : Word} (h : w &&& o.mask = o.matchWord) :
    decode w = decodeRow o w := by
  rw [decode, fieldOP_of_match h, ofCode_code]
  exact if_pos ((selects_iff o w).2 h)

/-- A word decodes to a command by way of a row that it matches. -/
theorem decode_command_iff (w : Word) (i : Instr) :
    decode w = .command i ↔ ∃ o : Opcode, w &&& o.mask = o.matchWord ∧ decodeRow o w = .command i := by
  constructor
  · intro h
    unfold decode at h
    split at h
    next => cases h
    next o _ =>
      split at h
      next hs => exact ⟨o, (selects_iff o w).1 hs, h⟩
      next => cases h
  · rintro ⟨o, hm, hi⟩
    exact (decode_of_match hm).trans hi

theorem toNat_sel (w : Word) : (immSEL (fieldIMM w)).toNat = w.toNat / 2 ^ 23 % 16 := by
  rw [immSEL, toNat_field, fieldIMM, toNat_field]
  omega

theorem decodeRow_rpget (w : Word) (h : w.toNat / 2 ^ 23 % 16 ≤ 12) :
    decodeRow .rpget w = .command (.rpget (regOf (fieldRD w)) (immSEL (fieldIMM w))) :=
  if_neg (by rw [toNat_sel]; omega)

theorem decodeRow_rpget_sel (w : Word) (h : 12 < w.toNat / 2 ^ 23 % 16) :
    decodeRow .rpget w = .illegal .selectorOutOfRange :=
  if_pos (by rwa [toNat_sel])

/-- A row answers one of its commands, RPGET only with SEL at most 12. -/
theorem decodeRow_cases (o : Opcode) (w : Word) :
    (∃ i, decodeRow o w = .command i ∧ i.opcode = o ∧ i.wellFormed = true
        ∧ (o = .rpget → w.toNat / 2 ^ 23 % 16 ≤ 12))
      ∨ (o = .rpget ∧ 12 < w.toNat / 2 ^ 23 % 16 ∧ decodeRow o w = .illegal .selectorOutOfRange) := by
  cases o with
  | rpget =>
    rcases Nat.lt_or_ge 12 (w.toNat / 2 ^ 23 % 16) with h | h
    · exact .inr ⟨rfl, h, decodeRow_rpget_sel w h⟩
    · exact .inl ⟨_, decodeRow_rpget w h, rfl, decide_eq_true (by rwa [toNat_sel]), fun _ => h⟩
  | _ => exact .inl ⟨_, rfl, rfl, rfl, by simp⟩

theorem decodeRow_command {o : Opcode} {w : Word} {i : Instr} (h : decodeRow o w = .command i) :
    i.opcode = o ∧ i.wellFormed = true ∧ (o = .rpget → w.toNat / 2 ^ 23 % 16 ≤ 12) := by
  rcases decodeRow_cases o w with ⟨j, hj, hrow⟩ | ⟨-, -, hr⟩
  · cases hj.symm.trans h
    exact hrow
  · cases hr.symm.trans h

/-- A word decodes to a command of a row exactly when it matches the row, RPGET only with SEL at most 12. -/
theorem decode_command_of_row_iff (o : Opcode) (w : Word) :
    (∃ i, decode w = .command i ∧ i.opcode = o)
      ↔ (w &&& o.mask = o.matchWord ∧ (o = .rpget → w.toNat / 2 ^ 23 % 16 ≤ 12)) := by
  constructor
  · rintro ⟨i, hi, rfl⟩
    obtain ⟨o, hm, ho⟩ := (decode_command_iff w i).1 hi
    obtain ⟨rfl, -, hsel⟩ := decodeRow_command ho
    exact ⟨hm, hsel⟩
  · rintro ⟨hm, hsel⟩
    rcases decodeRow_cases o w with ⟨i, hi, ho, -⟩ | ⟨ho, hgt, -⟩
    · exact ⟨i, (decode_of_match hm).trans hi, ho⟩
    · exact absurd (hsel ho) (by omega)

/-- Settles O4: the table by evaluation, and the decoder by its rows. -/
theorem matchAndMaskSelect : Obligations.MatchAndMaskSelect :=
  ⟨by decide, by decide, fun _ _ _ => row_unique, decode_command_of_row_iff⟩

/-! ## Illegal words -/

theorem decode_illegal_iff (w : Word) : (∃ r, decode w = .illegal r) ↔ ¬ ∃ i, decode w = .command i := by
  cases decode w <;> simp

/-- The bytes that are no opcode (30_encoding.md R106). -/
theorem ofCode_none (b : Byte) : Opcode.ofCode b = none ↔
    ((0x01 ≤ b.toNat ∧ b.toNat ≤ 0x0F) ∨ (0x15 ≤ b.toNat ∧ b.toNat ≤ 0x1F)
      ∨ (0x28 ≤ b.toNat ∧ b.toNat ≤ 0x2F) ∨ 0x33 ≤ b.toNat) := by
  revert b
  decide

theorem decode_unassigned_iff (w : Word) :
    decode w = .illegal .unassignedOpcode ↔ Opcode.ofCode (fieldOP w) = none := by
  unfold decode
  cases Opcode.ofCode (fieldOP w) with
  | none => simp
  | some o =>
    refine iff_of_false ?_ (by simp)
    dsimp only
    split
    next => rcases decodeRow_cases o w with ⟨i, hi, -⟩ | ⟨-, -, hr⟩ <;> simp [*]
    next => simp

/-- Settles O5: a word is illegal when no row gives it a command. -/
theorem illegalWordsExactly : Obligations.IllegalWordsExactly := by
  refine ⟨fun w => ?_, fun w => ?_⟩
  · rw [decode_illegal_iff]
    constructor
    · intro h
      by_contra hn
      push Not at hn
      obtain ⟨⟨o, hm⟩, hsel⟩ := hn
      obtain ⟨i, hi, -⟩ := (decode_command_of_row_iff o w).2 ⟨hm, fun ho => hsel (ho ▸ hm)⟩
      exact h ⟨i, hi⟩
    · rintro h ⟨i, hi⟩
      obtain ⟨hm, hsel⟩ := (decode_command_of_row_iff i.opcode w).1 ⟨i, hi, rfl⟩
      rcases h with h | ⟨hrp, hgt⟩
      · exact h _ hm
      · exact absurd (hsel (row_unique hm hrp)) (by omega)
  · rw [decode_unassigned_iff, ofCode_none, fieldOP, toNat_field, Nat.pow_zero, Nat.div_one]
    rfl

/-! ## Decoding an encoded command -/

theorem encode_selects (i : Instr) : i.opcode.selects (encode i) = true := by
  cases i with
  | nop => exact Laws.MatchesOwnRow.nop
  | enc s vn mode => exact Laws.MatchesOwnRow.enc s vn mode
  | dec => exact Laws.MatchesOwnRow.dec
  | setts s k => exact Laws.MatchesOwnRow.setts s k
  | getts d k => exact Laws.MatchesOwnRow.getts d k
  | rpget d sel => exact Laws.MatchesOwnRow.rpget d sel
  | ts2d s => exact Laws.MatchesOwnRow.ts2d s
  | u2d s => exact Laws.MatchesOwnRow.u2d s
  | s2d s => exact Laws.MatchesOwnRow.s2d s
  | h2d s => exact Laws.MatchesOwnRow.h2d s
  | d2ts d => exact Laws.MatchesOwnRow.d2ts d
  | d2u d => exact Laws.MatchesOwnRow.d2u d
  | d2s d => exact Laws.MatchesOwnRow.d2s d
  | d2h d => exact Laws.MatchesOwnRow.d2h d
  | tsub d a b => exact Laws.MatchesOwnRow.tsub d a b
  | offset d t1 t2 t3 t4 => exact Laws.MatchesOwnRow.offset d t1 t2 t3 t4
  | delay d t1 t2 t3 t4 => exact Laws.MatchesOwnRow.delay d t1 t2 t3 t4

/-- The row of a command reads its operands back out of its word. -/
theorem decodeRow_encode (i : Instr) (h : i.wellFormed = true) :
    decodeRow i.opcode (encode i) = .command i := by
  cases i with
  | rpget d sel =>
    have hsel : ¬ 12 < sel.toNat := Nat.not_lt.2 (of_decide_eq_true h)
    simp [Instr.opcode, encode, decodeRow, hsel]
  | _ => simp [Instr.opcode, encode, decodeRow]

/-- Settles O2: the word of a command matches the command's row, which reads its operands back. -/
theorem decodeOfEncode : Obligations.DecodeOfEncode := fun i h =>
  (decode_of_match ((selects_iff _ _).1 (encode_selects i))).trans (decodeRow_encode i h)

/-! ## Encoding a decoded word -/

/-- The word `w` with every bit that the mask of `o` covers as the row has it. -/
def Opcode.fit (o : Opcode) (w : Word) : Word := w &&& ~~~ o.mask ||| o.matchWord

theorem Opcode.fit_of_match {o : Opcode} {w : Word} (h : w &&& o.mask = o.matchWord) : o.fit w = w := by
  rw [Opcode.fit, ← h, ← BitVec.and_or_distrib_left, BitVec.not_or_self, BitVec.and_allOnes]

theorem immOfEnc_fields (imm : BitVec 9) : immOfEnc (immVN imm) (immMODE imm) = imm &&& 0x03F#9 := by
  revert imm
  decide

theorem immOfSlot_slotOf (imm : BitVec 9) : immOfSlot (slotOf (immSLOT imm)) = imm &&& 0x003#9 := by
  revert imm
  decide

theorem immOfSel_immSEL (imm : BitVec 9) : immOfSel (immSEL imm) = imm &&& 0x00F#9 := by
  revert imm
  decide

/-- Encoding what a row reads gives the word fitted to the row: field by field, a field the row uses is kept
and the mask covers every other. -/
theorem encode_of_decodeRow {o : Opcode} {w : Word} {i : Instr} (h : decodeRow o w = .command i) :
    encode i = o.fit w := by
  obtain ⟨-, -, hsel⟩ := decodeRow_command h
  have hfull : ∀ x : BitVec 3, x &&& 7#3 = x := fun _ => BitVec.and_allOnes
  rw [← packR_fields (o.fit w)]
  cases o
  case' rpget => rw [decodeRow_rpget w (hsel rfl)] at h
  all_goals
    cases h
    simp [encode, immOfEnc_fields, immOfSlot_slotOf, immOfSel_immSEL, Opcode.fit, Opcode.mask, Opcode.matchWord,
      Opcode.code, fieldIMM, fieldRS4, fieldRS3, fieldRS2, fieldRS1, fieldRD, fieldOP, BitVec.extractLsb'_or,
      BitVec.extractLsb'_and, hfull]

/-- Settles O3: a word that matches its row is fitted to it already. -/
theorem encodeOfDecode : Obligations.EncodeOfDecode := by
  intro w i h
  obtain ⟨o, hm, hi⟩ := (decode_command_iff w i).1 h
  obtain ⟨-, hwf, -⟩ := decodeRow_command hi
  exact ⟨hwf, (encode_of_decodeRow hi).trans (Opcode.fit_of_match hm)⟩

end Sys2Proof
end

section
/-! SUPPORT. The destination register of a command: a write to X0 is discarded, and nothing but the registers
depends on which register a command writes (30_encoding.md R102, 10_state.md R20). -/

namespace Sys2Proof.Machine

/-- STATUS, D, the reply registers and the packet are the same in both states. -/
def SameOffRegs (t u : State) : Prop :=
  u.block.status = t.block.status ∧ u.block.d = t.block.d ∧ u.block.rp = t.block.rp ∧ PktSame t u

theorem SameOffRegs.refl (t : State) : SameOffRegs t t := ⟨rfl, rfl, rfl, fun _ => rfl⟩

theorem endCommand_writeX_sameOffRegs (s : State) (rd q : Reg) (v : DWord) (c : Code) (u n : Bool) :
    SameOffRegs ((s.writeX rd v).endCommand c u n) ((s.writeX q v).endCommand c u n) :=
  ⟨rfl, rfl, rfl, fun _ => rfl⟩

section

variable {s t : State} {rd : Reg} (q : Reg)

theorem finishX_otherDest {v : DWord} (h : s.finishX rd v = .next t) :
    ∃ u, s.finishX q v = .next u ∧ SameOffRegs t u := by
  cases h
  exact ⟨_, rfl, endCommand_writeX_sameOffRegs s rd q v .ok false false⟩

theorem finishConversion_otherDest {o : Option DWord} (h : s.finishConversion rd o = .next t) :
    ∃ u, s.finishConversion q o = .next u ∧ SameOffRegs t u := by
  cases o with
  | some v => exact finishX_otherDest q h
  | none => exact ⟨t, h, .refl t⟩

theorem finishDelay_otherDest {d : Int} (h : s.finishDelay rd d = .next t) :
    ∃ u, s.finishDelay q d = .next u ∧ SameOffRegs t u := by
  by_cases hd : d < 0
  · rw [State.finishDelay_negative _ _ _ hd] at h ⊢
    cases h
    exact ⟨_, rfl, endCommand_writeX_sameOffRegs s rd q 0#64 .ok false true⟩
  · rw [State.finishDelay_exact _ _ _ (by omega)] at h ⊢
    exact finishX_otherDest q h

theorem execRpget_otherDest {sel : BitVec 4} (h : execRpget rd sel s = .next t) :
    ∃ u, execRpget q sel s = .next u ∧ SameOffRegs t u := by
  unfold execRpget at h ⊢
  cases hk : replyOf sel.toNat with
  | some k =>
    rw [hk] at h
    exact finishX_otherDest q h
  | none =>
    rw [hk] at h
    exact ⟨t, h, .refl t⟩

end

/-- The command with another destination register does the same off the general registers. -/
theorem exec_withDest {i : Instr} (q : Reg) {s t : State} (h : exec i s = .next t) :
    ∃ u, exec (withDest q i) s = .next u ∧ SameOffRegs t u := by
  cases i with
  | getts | tsub | offset => exact finishX_otherDest q h
  | rpget => exact execRpget_otherDest q h
  | d2ts | d2u | d2s | d2h => exact finishConversion_otherDest q h
  | delay => exact finishDelay_otherDest q h
  | _ => exact ⟨t, h, .refl t⟩

/-- A command whose destination is X0 leaves every register, X0 included. -/
theorem ExecShape.regsSame_of_x0 {i : Instr} {s t : State} (h : ExecShape i s t) (hd : destOf i = some .x0) :
    RegsSame s t := by
  intro r
  by_cases hr : r = .x0
  · subst hr
    rfl
  · exact h.readX_same (by simp [hd, Ne.symm hr])

/-- Settles O25: from the shapes of a command, and from the command with another destination. -/
theorem x0DestinationIsDiscarded : Obligations.X0DestinationIsDiscarded :=
  ⟨fun _ _ t h => ⟨State.readX_x0 t, (exec_shape_of_next h).regsSame_of_x0⟩, fun _ q _ _ h => exec_withDest q h⟩

end Sys2Proof.Machine
end

section
/-! SUPPORT. The assembler on lines of register operands, and the expansions of the pseudo-instructions
(30_encoding.md R115 to R117). -/

namespace Sys2Proof.Machine

/-! ## Register operands -/

theorem asmReg_regText (r : Reg) : asmReg (regText r) = some r := by cases r <;> rfl

theorem splitOperands_one (r : Reg) : splitOperands ((regText r).map lowerChar) = [regText r] := by
  cases r <;> rfl

theorem splitOperands_two (d r : Reg) :
    splitOperands ((regText d ++ [',', ' '] ++ regText r).map lowerChar) = [regText d, regText r] := by
  cases d <;> cases r <;> rfl

/-! ## Lines -/

/-- A line is its mnemonic's form of its operands. -/
theorem assemble_of_form {line m rest : Text} {f : List Text → Option Instr}
    (hs : splitMnemonic [] (dropSpaces (line.map lowerChar)) = (m, rest))
    (hf : formOf m (commandForms ++ pseudoForms) = some f) : assemble line = f (splitOperands rest) := by
  simp only [assemble, hs, hf]

theorem asmOne_regText (f : Reg → Instr) (r : Reg) :
    asmOne f (splitOperands ((regText r).map lowerChar)) = some (f r) := by
  rw [splitOperands_one, asmOne, asmReg_regText, Option.map_some]

theorem asmEnc_regText (r : Reg) :
    asmEnc (splitOperands ((regText r).map lowerChar)) = some (.enc r 4#3 3#3) := by
  rw [splitOperands_one, asmEnc, asmReg_regText, Option.map_some]

theorem asmNegts_regText (d r : Reg) :
    asmNegts (splitOperands ((regText d ++ [',', ' '] ++ regText r).map lowerChar)) = some (.tsub d .x0 r) := by
  rw [splitOperands_two, asmNegts, asmReg_regText, asmReg_regText]
  rfl

/-- Settles O7: line by line, the mnemonic's form on the registers. -/
theorem pseudoInstructionsExpand : Obligations.PseudoInstructionsExpand := by
  intro d r
  exact ⟨(assemble_of_form rfl rfl).trans (asmEnc_regText r), (assemble_of_form rfl rfl).trans (asmEnc_regText r),
    rfl, rfl,
    (assemble_of_form rfl rfl).trans (asmOne_regText _ d), (assemble_of_form rfl rfl).trans (asmOne_regText _ d),
    (assemble_of_form rfl rfl).trans (asmOne_regText _ d), (assemble_of_form rfl rfl).trans (asmOne_regText _ d),
    rfl, rfl,
    (assemble_of_form rfl rfl).trans (asmNegts_regText d r), (assemble_of_form rfl rfl).trans (asmNegts_regText d r),
    rfl, rfl⟩

end Sys2Proof.Machine
end

section
/-! SUPPORT. A write to CMD as a command step, the illegal command and NOP, and which word a command is
(30_encoding.md R107; 40_control.md R130 to R132). -/

namespace Sys2Proof.Machine

/-! ## The word of a command -/

/-- A well-formed command is the command of its encoding, and of no other word. -/
theorem encodedAs_encode {i : Instr} (h : i.wellFormed = true) : EncodedAs i (encode i).toNat := by
  intro w
  rw [← BitVec.toNat_eq]
  constructor
  · intro hw
    exact (encodeOfDecode w i hw).2.symm
  · rintro rfl
    exact decodeOfEncode i h

/-! ## A write to CMD -/

theorem runCommand_of_command {w : Word} {i : Instr} (h : decode w = .command i) (s : State) :
    runCommand w s = exec i s := by
  rw [runCommand, h]

theorem runCommand_of_illegal {w : Word} {r : Reject} (h : decode w = .illegal r) (s : State) :
    runCommand w s = .next (s.endCommand .illegal false false) := by
  rw [runCommand, h]
  rfl

/-- The step on a write to CMD. -/
theorem step_command {s : State} {w : Word} {rest : List HostEvent}
    (h : s.pending = .write 32 (s.base + 0x00C) w :: rest) :
    step s = runCommand w { s with pending := rest } :=
  (step_write s .cmd w rest h).trans (hostWrite_cmd w _)

/-- Settles O8: the write lands on CMD, and its word is read as the command. -/
theorem stepRunsTheCommandWritten : Obligations.StepRunsTheCommandWritten := fun _ _ _ _ hp hi =>
  (step_command hp).trans (runCommand_of_command hi _)

/-! ## Commands that write STATUS alone -/

theorem State.endCommand_sameButStatus (s : State) (c : Code) (u n : Bool) :
    SameButStatus s (s.endCommand c u n) :=
  ⟨⟨⟨rfl, rfl, rfl⟩, ⟨rfl, rfl⟩, rfl, rfl, fun _ => rfl⟩, fun _ => rfl⟩

/-- Settles O9: an illegal word only ends the command, with ILLEGAL. -/
theorem illegalWordReportsIllegal : Obligations.IllegalWordReportsIllegal := fun _ _ _ _ hp hr =>
  ⟨_, (step_command hp).trans (runCommand_of_illegal hr _), State.endCommand_ends .., State.endCommand_sameButStatus ..⟩

/-- Settles O28: the encoding of NOP is 0, and NOP only ends the command, with OK. -/
theorem nopClearsStatus : Obligations.NopClearsStatus :=
  ⟨encodedAs_encode (i := .nop) rfl,
    fun s => ⟨_, rfl, s.endCommand_ends .ok false false, s.endCommand_sameButStatus .ok false false⟩⟩

end Sys2Proof.Machine
end

section
/-! SUPPORT. The words of the packet commands, and ENC, SETTS, GETTS and RPGET: what each leaves in the packet
buffer or in its register (30_encoding.md R101, R106; 41_packet.md R140, R145 to R147). -/

namespace Sys2Proof.Machine

/-! ## Command words -/

/-- Settles O6, by running the decoder on the fixed words. -/
theorem specExampleWordsDecode : Obligations.SpecExampleWordsDecode := by
  unfold Obligations.SpecExampleWordsDecode
  decide

theorem toNat_immOfEnc (vn mode : BitVec 3) : (immOfEnc vn mode).toNat = mode.toNat * 8 + vn.toNat := by
  refine (toNat_concat (0#3 ++ mode) vn).trans ?_
  rw [toNat_concat, BitVec.toNat_ofNat]
  omega

theorem toNat_immOfSlot (k : Slot) : (immOfSlot k).toNat = (slotNum k).toNat := by cases k <;> rfl

theorem toNat_immOfSel (sel : BitVec 4) : (immOfSel sel).toNat = sel.toNat := by
  refine (toNat_concat 0#5 sel).trans ?_
  rw [BitVec.toNat_ofNat]
  omega

/-- A word of format R that uses RS1 and IMM only, as a number. -/
theorem toNat_packR_rs1 (imm : BitVec 9) (rs1 : BitVec 3) (op : Byte) :
    (packR imm 0 0 0 rs1 0 op).toNat = op.toNat + rs1.toNat * 2 ^ 11 + imm.toNat * 2 ^ 23 := by
  rw [toNat_packR]
  simp only [BitVec.ofNat_eq_ofNat, BitVec.toNat_ofNat]
  omega

/-- A word of format R that uses RD and IMM only, as a number. -/
theorem toNat_packR_rd (imm : BitVec 9) (rd : BitVec 3) (op : Byte) :
    (packR imm 0 0 0 0 rd op).toNat = op.toNat + rd.toNat * 2 ^ 8 + imm.toNat * 2 ^ 23 := by
  rw [toNat_packR]
  simp only [BitVec.ofNat_eq_ofNat, BitVec.toNat_ofNat]
  omega

theorem encodedAs_of_toNat {i : Instr} {n : Nat} (h : i.wellFormed = true) (hn : (encode i).toNat = n) :
    EncodedAs i n :=
  hn ▸ encodedAs_encode h

theorem encodedAs_enc (rs1 : Reg) (vn mode : BitVec 3) :
    EncodedAs (.enc rs1 vn mode)
      (0x10 + (regNum rs1).toNat * 2 ^ 11 + vn.toNat * 2 ^ 23 + mode.toNat * 2 ^ 26) := by
  refine encodedAs_of_toNat rfl ?_
  rw [encode, toNat_packR_rs1, toNat_immOfEnc, show Opcode.enc.code.toNat = 0x10 from rfl]
  omega

theorem encodedAs_setts (rs1 : Reg) (k : Slot) :
    EncodedAs (.setts rs1 k) (0x12 + (regNum rs1).toNat * 2 ^ 11 + (slotNum k).toNat * 2 ^ 23) := by
  refine encodedAs_of_toNat rfl ?_
  rw [encode, toNat_packR_rs1, toNat_immOfSlot]
  rfl

theorem encodedAs_getts (rd : Reg) (k : Slot) :
    EncodedAs (.getts rd k) (0x13 + (regNum rd).toNat * 2 ^ 8 + (slotNum k).toNat * 2 ^ 23) := by
  refine encodedAs_of_toNat rfl ?_
  rw [encode, toNat_packR_rd, toNat_immOfSlot]
  rfl

theorem toNat_sel_replyNum (k : ReplyReg) : (BitVec.ofNat 4 (replyNum k)).toNat = replyNum k := by
  cases k <;> rfl

theorem wellFormed_rpget_replyNum (rd : Reg) (k : ReplyReg) :
    (Instr.rpget rd (BitVec.ofNat 4 (replyNum k))).wellFormed = true := by
  cases k <;> rfl

theorem encodedAs_rpget (rd : Reg) (k : ReplyReg) :
    EncodedAs (.rpget rd (BitVec.ofNat 4 (replyNum k)))
      (0x14 + (regNum rd).toNat * 2 ^ 8 + replyNum k * 2 ^ 23) := by
  refine encodedAs_of_toNat (wellFormed_rpget_replyNum rd k) ?_
  rw [encode, toNat_packR_rd, toNat_immOfSel, toNat_sel_replyNum]
  rfl

/-- A word of RPGET's opcode with SEL above 12 could only be a command of RPGET's row, which refuses it. -/
theorem decode_illegal_of_selector {w : Word} (hop : w.toNat % 256 = 0x14)
    (hsel : 12 < w.toNat / 2 ^ 23 % 16) : ∃ r, decode w = .illegal r := by
  rw [decode_illegal_iff]
  rintro ⟨i, hi⟩
  obtain ⟨hm, hle⟩ := (decode_command_of_row_iff i.opcode w).1 ⟨i, hi, rfl⟩
  have hcode : fieldOP w = Opcode.rpget.code := by
    apply BitVec.eq_of_toNat_eq
    rw [fieldOP, toNat_field, Nat.pow_zero, Nat.div_one]
    exact hop
  have hrow : i.opcode = .rpget := code_injective ((fieldOP_of_match hm).symm.trans hcode)
  have := hle hrow
  omega

/-! ## ENC -/

theorem requestHeader_wf (b : Byte) : (Memory.zero.write 0 b).wf = true :=
  Memory.write_wf _ Memory.zero_wf 0 b (by decide)

theorem requestPacket_read_below (vn mode : BitVec 3) (t : DWord) {a : Nat} (ha : a < 40) :
    (requestPacket vn mode t).read a = (Memory.zero.write 0 (headerByte 0#2 vn mode)).read a :=
  Memory.read_write64_other _ (requestHeader_wf _) 40 a t (by decide) (.inl ha)

theorem requestPacket_header (vn mode : BitVec 3) (t : DWord) :
    (requestPacket vn mode t).read 0 = headerByte 0#2 vn mode := by
  rw [requestPacket_read_below vn mode t (by decide), Memory.read_write_same _ Memory.zero_wf]

theorem toNat_requestPacket_header (vn mode : BitVec 3) (t : DWord) :
    ((requestPacket vn mode t).read 0).toNat = vn.toNat * 8 + mode.toNat := by
  rw [requestPacket_header, toNat_headerByte, BitVec.toNat_ofNat]
  omega

theorem requestPacket_blank (vn mode : BitVec 3) (t : DWord) {a : Nat} (h1 : 1 ≤ a) (h40 : a < 40) :
    (requestPacket vn mode t).read a = 0#8 := by
  rw [requestPacket_read_below vn mode t h40, Memory.read_write_other _ Memory.zero_wf _ _ _ (by omega)]
  rfl

theorem requestPacket_read64 (vn mode : BitVec 3) (t : DWord) : (requestPacket vn mode t).read64 40 = t :=
  Memory.read64_write64 _ (requestHeader_wf _) 40 t (by decide)

/-- A packet byte after a command that replaces the buffer. -/
@[simp] theorem State.pktByte_setPkt_end (s : State) (m : Memory) (c : Code) (u n : Bool) (a : Nat) :
    ((s.setPkt m).endCommand c u n).pktByte a = m.read a := rfl

/-- Eight packet bytes after a command that replaces the buffer. -/
theorem State.bigEndian_setPkt_end (s : State) (m : Memory) (c : Code) (u n : Bool) (a : Nat) :
    ((s.setPkt m).endCommand c u n).bigEndian a 8 = (m.read64 a).toNat :=
  State.bigEndian_eight _ a

theorem exec_enc (rs1 : Reg) (vn mode : BitVec 3) (s : State) :
    exec (.enc rs1 vn mode) s
      = .next ((s.setPkt (requestPacket vn mode (s.readX rs1))).endCommand .ok false false) := rfl

/-- What a command that replaces the packet buffer leaves, and how it ends. -/
theorem setPkt_frame (s : State) (m : Memory) :
    Ends .ok false false s ((s.setPkt m).endCommand .ok false false)
      ∧ SameButPkt s ((s.setPkt m).endCommand .ok false false) :=
  ⟨⟨rfl, rfl, rfl, rfl⟩, ⟨rfl, rfl, rfl⟩, ⟨rfl, rfl⟩, fun _ => rfl, rfl, rfl⟩

/-- Settles O29: the request packet byte by byte. -/
theorem encBuildsTheRequest : Obligations.EncBuildsTheRequest := by
  intro s rs1 vn mode
  refine ⟨encodedAs_enc rs1 vn mode, _, exec_enc rs1 vn mode s, ?_, fun a h1 h40 => ?_, ?_, setPkt_frame s _⟩
  · rw [State.pktByte_setPkt_end, toNat_requestPacket_header]
  · rw [State.pktByte_setPkt_end, requestPacket_blank vn mode _ h1 h40]
  · rw [State.bigEndian_setPkt_end, requestPacket_read64]

/-! ## SETTS and GETTS -/

theorem exec_setts (rs1 : Reg) (k : Slot) (s : State) :
    exec (.setts rs1 k) s
      = .next ((s.setPkt (s.block.pkt.write64 (slotOffset k) (s.readX rs1))).endCommand .ok false false) := rfl

theorem exec_getts (rd : Reg) (k : Slot) (s : State) :
    exec (.getts rd k) s
      = .next ((s.writeX rd (s.block.pkt.read64 (slotOffset k))).endCommand .ok false false) := rfl

theorem read64_written_slot {m : Memory} (h : m.wf = true) (k : Slot) (v : DWord) :
    (m.write64 (slotOffset k) v).read64 (slotOffset k) = v :=
  Memory.read64_write64 m h _ v (slotOffset_bound k)

/-- Settles O34: the slot reads what was stored, and the store leaves the other bytes alone. -/
theorem settsStoresTheSlot : Obligations.SettsStoresTheSlot := by
  intro s rs1 k hwf
  refine ⟨encodedAs_setts rs1 k, _, exec_setts rs1 k s, ?_, rfl, rfl, rfl, rfl, fun a ha => ?_,
    setPkt_frame s _⟩
  · rw [State.bigEndian_setPkt_end, read64_written_slot hwf]
  · rw [State.pktByte_setPkt_end, Memory.read_write64_other _ hwf _ a _ (slotOffset_bound k) ha]
    rfl

/-- Settles O35: the slot's bytes as one number, and the frame of a register write. -/
theorem gettsLoadsTheSlot : Obligations.GettsLoadsTheSlot := fun s rd k =>
  ⟨encodedAs_getts rd k, _, _, exec_getts rd k s, (s.bigEndian_eight (slotOffset k)).symm,
    finishX_frame s rd _ false⟩

/-! ## RPGET -/

theorem exec_rpget (rd : Reg) (k : ReplyReg) (s : State) :
    exec (.rpget rd (BitVec.ofNat 4 (replyNum k))) s
      = .next ((s.writeX rd (s.block.rp.read k)).endCommand .ok false false) := by
  rw [exec, execRpget, toNat_sel_replyNum, replyOf_replyNum]
  rfl

/-- Settles O36: no row gives such a word a command, and SEL names the register that is copied. -/
theorem rpgetCopiesTheReplyRegister : Obligations.RpgetCopiesTheReplyRegister :=
  ⟨fun _ => decode_illegal_of_selector,
    fun s rd k => ⟨encodedAs_rpget rd k, _, exec_rpget rd k s, finishX_frame s rd _ false⟩⟩

end Sys2Proof.Machine
end

section
/-! SUPPORT. DEC: its three outcomes, that a second DEC changes nothing, and the latched reply as numbers; and
timestamps through the packet buffer (41_packet.md R141 to R144, R148). -/

namespace Sys2Proof.Machine

/-! ## Outcomes -/

/-- DEC on a datagram of accepted length and mode ends with the verdict on the latched reply. -/
theorem execDec_verdict {s : State} (hl : s.block.rxLen.toNat = 48)
    (hm : modeAccepted (headerMode (s.pktByte 0)) = true) :
    ∃ c u, execDec s = .next (s.latch.endCommand c u false) ∧ ReplyVerdict s c u := by
  obtain ⟨c, u, he, hv⟩ := latch_checkReply s
  exact ⟨c, u, (execDec_latch s hl hm).trans (congrArg _ he), hv⟩

theorem modeAccepted_eq_false {b : Byte} (h4 : b.toNat % 8 ≠ 4) (h2 : b.toNat % 8 ≠ 2) :
    modeAccepted (headerMode b) = false := by
  rw [← Bool.not_eq_true, modeAccepted_iff]
  omega

theorem ReplyVerdict.code {s : State} {c : Code} {u : Bool} (h : ReplyVerdict s c u) :
    c = .ok ∨ c = .kod ∨ c = .unsync := by
  cases h <;> simp

theorem toNat_pktByte_eq_zero (s : State) (a : Nat) : (s.pktByte a).toNat = 0 ↔ s.pktByte a = 0#8 :=
  BitVec.toNat_inj (y := 0#8)

/-- The verdict on a reply read off its stratum and leap indicator as numbers: the four cases of R141 in
their order. -/
theorem ReplyVerdict.cases_toNat {s : State} {c : Code} {u : Bool} (h : ReplyVerdict s c u) :
    ((s.pktByte 1).toNat = 0 → c = .kod ∧ u = false)
      ∧ ((s.pktByte 1).toNat ≠ 0 → (s.pktByte 0).toNat / 64 ≠ 3 → c = .ok ∧ u = false)
      ∧ ((s.pktByte 1).toNat ≠ 0 → (s.pktByte 0).toNat / 64 = 3 →
          s.block.ctrl.unsyncFatal = true → c = .unsync ∧ u = false)
      ∧ ((s.pktByte 1).toNat ≠ 0 → (s.pktByte 0).toNat / 64 = 3 →
          s.block.ctrl.unsyncFatal = false → c = .ok ∧ u = true) := by
  simp only [ne_eq, toNat_pktByte_eq_zero, ← headerLI_eq_three]
  cases h with
  | kod h1 => simp [h1]
  | unsync h1 h2 h3 => simp [h1, h2, h3]
  | advisory h1 h2 h3 => simp [h1, h2, h3]
  | accepted h1 h2 => simp [h1, h2]

/-! ## Frame and repetition -/

/-- A DEC is refused, and clears RPV, or latches the packet. -/
theorem ExecShape.dec_cases {s t : State} (h : ExecShape .dec s t) :
    (∃ c, (c = .malformed ∨ c = .invmode) ∧ t = (s.setRpv false).endCommand c false false)
      ∨ ∃ c u, ReplyVerdict s c u ∧ t = s.latch.endCommand c u false := by
  cases h with
  | refused c _ hc => exact .inl ⟨c, hc.imp And.left And.left, rfl⟩
  | latched _ _ _ c u hv => exact .inr ⟨c, u, hv, rfl⟩
  | status _ hdec => exact absurd rfl hdec
  | register _ _ _ _ hdec => exact absurd rfl hdec
  | duration _ _ hdec => simp at hdec
  | packet _ hdec => simp at hdec

/-- DEC writes the reply registers and STATUS alone, and never W_NEGDLY. -/
theorem ExecShape.dec_frame {s t : State} (h : ExecShape .dec s t) :
    HostSideSame s t ∧ ControlSame s t ∧ RegsSame s t ∧ t.block.d = s.block.d ∧ PktSame s t
      ∧ t.block.status.wNegdly = false := by
  refine ⟨h.hostSideSame, h.controlSame, fun _ => h.readX_same nofun, h.d_same (by simp),
    h.pktSame (by simp), ?_⟩
  rcases h.dec_cases with ⟨c, -, rfl⟩ | ⟨c, u, -, rfl⟩ <;> rfl

/-- A second DEC reads the length, the packet and CTRL that the first one read. -/
theorem execDec_again {s t : State} (h : execDec s = .next t) : execDec t = .next t := by
  by_cases hl : s.block.rxLen.toNat = 48
  · cases hm : modeAccepted (headerMode (s.pktByte 0))
    · rw [execDec_invmode s hl hm] at h
      cases h
      exact execDec_invmode _ hl hm
    · obtain ⟨c, u, hs, -⟩ := execDec_verdict hl hm
      cases hs.symm.trans h
      calc execDec (s.latch.endCommand c u false)
          = execDec s.latch := execDec_setStatus s.latch _
        _ = .next s.latch.checkReply := execDec_latch s.latch hl hm
        _ = .next (s.latch.endCommand c u false) := (execDec_latch s hl hm).symm.trans hs
  · rw [execDec_malformed s hl] at h
    cases h
    exact execDec_malformed _ hl

/-- Settles O30: the frame and the repetition from the shape of a DEC, each outcome from its check. -/
theorem decChecksInOrder : Obligations.DecChecksInOrder := by
  refine ⟨encodedAs_encode (i := .dec) rfl, fun s => ?_⟩
  obtain ⟨t, ht, hshape⟩ := exec_shape .dec s
  obtain ⟨hhost, hctrl, hregs, hd, hpkt, hneg⟩ := hshape.dec_frame
  refine ⟨t, ht, execDec_again ht, hhost, hctrl, hregs, hd, hpkt, hneg, fun hl => ?_, fun hl h4 h2 => ?_,
    fun hl hmode => ?_⟩
  · cases (execDec_malformed s hl).symm.trans ht
    exact ⟨rfl, rfl, rfl, rfl⟩
  · cases (execDec_invmode s hl (modeAccepted_eq_false h4 h2)).symm.trans ht
    exact ⟨rfl, rfl, rfl, rfl⟩
  · obtain ⟨c, u, hs, hv⟩ := execDec_verdict hl ((modeAccepted_iff _).2 hmode)
    cases hs.symm.trans ht
    exact ⟨rfl, rfl, hv.cases_toNat⟩

theorem ExecShape.dec_code {s t : State} (h : ExecShape .dec s t) :
    t.block.status.err = .ok ∨ t.block.status.err = .malformed ∨ t.block.status.err = .invmode
      ∨ t.block.status.err = .kod ∨ t.block.status.err = .unsync := by
  rcases h.dec_cases with ⟨c, rfl | rfl, rfl⟩ | ⟨c, u, hv, rfl⟩
  · simp
  · simp
  · rcases hv.code with rfl | rfl | rfl <;> simp

/-- Settles O33: every shape of a DEC has one of the five codes and leaves what the next DEC reads. -/
theorem decIsTotalAndRepeatable : Obligations.DecIsTotalAndRepeatable := by
  intro s
  obtain ⟨t, ht, hshape⟩ := exec_shape .dec s
  obtain ⟨-, hctrl, -, -, hpkt, -⟩ := hshape.dec_frame
  have hcode := hshape.dec_code
  refine ⟨t, ht, hcode, ?_, ?_, hpkt, hctrl, execDec_again ht⟩ <;>
    rcases hcode with h | h | h | h | h <;> simp [h]

/-! ## The latched reply -/

theorem toNat_latchedReply_vn (m : Memory) : (latchedReply m).vn.toNat = (m.read 0).toNat / 8 % 8 := by
  simp only [latchedReply, BitVec.toNat_setWidth, toNat_headerVN]
  omega

theorem toNat_latchedReply_poll (m : Memory) : (latchedReply m).poll.toNat = (m.read 2).toNat := by
  simp only [latchedReply, BitVec.toNat_setWidth]
  omega

theorem toInt_latchedReply_prec (m : Memory) : (latchedReply m).prec.toInt = (m.read 3).toInt :=
  BitVec.toInt_signExtend_of_le (by decide)

theorem toNat_latchedReply_refid (m : Memory) : (latchedReply m).refid.toNat = (m.read32 12).toNat :=
  BitVec.toNat_setWidth_of_le (by decide)

/-- A latched big-endian word, zero-extended, as a number. -/
theorem toNat_latched_word (s : State) (a : Nat) :
    ((s.block.pkt.read32 a).setWidth 64).toNat = s.bigEndian a 4 := by
  rw [BitVec.toNat_setWidth_of_le (by decide), State.bigEndian_four]

theorem latchedReply_txts (m : Memory) : (latchedReply m).read .txts = m.read64 40 := rfl

/-- Settles O31: field by field. -/
theorem latchedFields : Obligations.LatchedFields := by
  refine ⟨rfl, fun s hl hmode => ?_⟩
  obtain ⟨c, u, hs, -⟩ := execDec_verdict hl ((modeAccepted_iff _).2 hmode)
  exact ⟨_, hs, toNat_latchedReply_li _, toNat_latchedReply_vn _, toNat_latchedReply_mode _,
    toNat_latchedReply_stratum _, toNat_latchedReply_poll _, toInt_latchedReply_prec _,
    toNat_latched_word s 4, toNat_latched_word s 8, toNat_latched_word s 12,
    (s.bigEndian_eight 16).symm, (s.bigEndian_eight 24).symm, (s.bigEndian_eight 32).symm,
    (s.bigEndian_eight 40).symm⟩

/-- A DEC that ends with KOD has latched the packet. -/
theorem rp_of_kod {s t : State} (h : exec .dec s = .next t) (hk : t.block.status.err = .kod) :
    t.block.rp = latchedReply s.block.pkt := by
  rcases (exec_shape_of_next h).dec_cases with ⟨c, rfl | rfl, rfl⟩ | ⟨c, u, -, rfl⟩
  · cases hk
  · cases hk
  · rfl

/-- Settles O32: the latched reference identifier is below 2^32, so that its low half on the bus is all of it. -/
theorem kissOfDeathReasonCode : Obligations.KissOfDeathReasonCode := by
  intro s t h hk
  have hrefid : (t.block.rp.read .refid).toNat = (s.block.pkt.read32 12).toNat := by
    rw [rp_of_kod h hk]
    exact toNat_latchedReply_refid _
  refine ⟨hrefid.trans (toNat_read32 _ 12), ⟨.rpLo .refid, rfl, ?_⟩, fun rd hrd => ?_⟩
  · have hlt := (s.block.pkt.read32 12).isLt
    refine (toNat_loHalf _).trans (Nat.mod_eq_of_lt ?_)
    omega
  · exact ⟨_, exec_rpget rd .refid t, (State.writeX_written t rd _).1 hrd⟩

/-! ## Round trips -/

/-- A register write after a command that leaves the registers. -/
theorem XWritten.of_regsSame {rd : Reg} {v : DWord} {s t u : State} (hst : RegsSame s t)
    (h : XWritten rd v t u) : XWritten rd v s u := by
  obtain ⟨hv, h0, hothers⟩ := h
  exact ⟨hv, h0, fun r hr => (hothers r hr).trans (hst r)⟩

/-- A stored timestamp is loaded again from its slot. -/
theorem setts_getts (s : State) (rs rd : Reg) (k : Slot) (hwf : s.block.pkt.wf = true) :
    ∃ t u, exec (.setts rs k) s = .next t ∧ exec (.getts rd k) t = .next u
      ∧ XWritten rd (s.readX rs) s u := by
  refine ⟨_, _, exec_setts rs k s, exec_getts rd k _, ?_⟩
  obtain ⟨-, -, -, hregs, -⟩ := setPkt_frame s (s.block.pkt.write64 (slotOffset k) (s.readX rs))
  rw [State.endCommand_pkt, State.setPkt_pkt, read64_written_slot hwf]
  exact (finishX_frame _ rd _ false).1.of_regsSame hregs

/-- The state after ENC, with the request it built as the received datagram. -/
def State.echoed (s : State) (rs : Reg) (vn m : BitVec 3) : State :=
  ((s.setPkt (requestPacket vn m (s.readX rs))).endCommand .ok false false).setRxLen 48#32

/-- DEC after ENC is DEC in that state. -/
theorem enc_dec_next {s u : State} {rs : Reg} {vn m : BitVec 3} (h : execDec (s.echoed rs vn m) = .next u) :
    ∃ t, exec (.enc rs vn m) s = .next t ∧ exec .dec (t.setRxLen 48#32) = .next u :=
  ⟨_, exec_enc rs vn m s, h⟩

@[simp] theorem echoed_rp (s : State) (rs : Reg) (vn m : BitVec 3) : (s.echoed rs vn m).block.rp = s.block.rp := by
  simp [State.echoed]

@[simp] theorem echoed_pkt (s : State) (rs : Reg) (vn m : BitVec 3) :
    (s.echoed rs vn m).block.pkt = requestPacket vn m (s.readX rs) := by
  simp [State.echoed]

theorem echoed_rxLen (s : State) (rs : Reg) (vn m : BitVec 3) :
    (s.echoed rs vn m).block.rxLen.toNat = 48 := rfl

theorem toNat_echoed_header (s : State) (rs : Reg) (vn m : BitVec 3) :
    ((s.echoed rs vn m).pktByte 0).toNat = vn.toNat * 8 + m.toNat := by
  rw [State.pktByte, echoed_pkt, toNat_requestPacket_header]

theorem toNat_echoed_stratum (s : State) (rs : Reg) (vn m : BitVec 3) :
    ((s.echoed rs vn m).pktByte 1).toNat = 0 := by
  rw [State.pktByte, echoed_pkt, requestPacket_blank vn m _ (by decide) (by decide)]
  rfl

/-- A request whose mode DEC accepts reads as a Kiss-of-Death, since its stratum is 0. -/
theorem enc_dec_accepted (s : State) (rs : Reg) (vn m : BitVec 3) (hm : m = 2#3 ∨ m = 4#3) :
    ∃ t u, exec (.enc rs vn m) s = .next t ∧ exec .dec (t.setRxLen 48#32) = .next u
      ∧ u.block.rp.read .txts = s.readX rs ∧ u.block.status.err = .kod := by
  have hheader := toNat_echoed_header s rs vn m
  have hmode : modeAccepted (headerMode ((s.echoed rs vn m).pktByte 0)) = true := by
    rw [modeAccepted_iff, hheader]
    rcases hm with rfl | rfl <;> rw [BitVec.toNat_ofNat] <;> omega
  obtain ⟨c, u, hs, hv⟩ := execDec_verdict (echoed_rxLen s rs vn m) hmode
  obtain ⟨t, ht, hu⟩ := enc_dec_next hs
  refine ⟨t, _, ht, hu, ?_, (hv.cases_toNat.1 (toNat_echoed_stratum s rs vn m)).1⟩
  rw [State.endCommand_rp, State.latch_rp, echoed_pkt, latchedReply_txts, requestPacket_read64]

/-- A client request of mode 3 is refused. -/
theorem enc_dec_client (s : State) (rs : Reg) (vn : BitVec 3) :
    ∃ t u, exec (.enc rs vn 3#3) s = .next t ∧ exec .dec (t.setRxLen 48#32) = .next u
      ∧ u.block.rp = s.block.rp ∧ u.block.status.err = .invmode := by
  have hheader : ((s.echoed rs vn 3#3).pktByte 0).toNat = vn.toNat * 8 + 3 := toNat_echoed_header s rs vn 3#3
  have hmode : modeAccepted (headerMode ((s.echoed rs vn 3#3).pktByte 0)) = false :=
    modeAccepted_eq_false (by omega) (by omega)
  have hdec := execDec_invmode (s.echoed rs vn 3#3) (echoed_rxLen s rs vn 3#3) hmode
  obtain ⟨t, ht, hu⟩ := enc_dec_next hdec
  exact ⟨t, _, ht, hu, by simp, rfl⟩

/-- Settles O37: one lemma for each way through the buffer. -/
theorem timestampRoundTrip : Obligations.TimestampRoundTrip :=
  ⟨setts_getts, enc_dec_accepted, enc_dec_client⟩

end Sys2Proof.Machine
end

section
/-! SUPPORT. The conversions at the level of states: the words of the eight commands, what a command that converts
into D and one that converts from D leave, and one after the other (30_encoding.md R101; 42_convert.md R184 to
R191). -/

namespace Sys2Proof.Machine

/-! ## Command words -/

/-- The word of a command whose only operand is RS1. -/
theorem encodedAs_of_rs1 {i : Instr} {rs1 : Reg} (o : Opcode) (hwf : i.wellFormed = true)
    (he : encode i = packR 0 0 0 0 (regNum rs1) 0 o.code) :
    EncodedAs i (o.code.toNat + (regNum rs1).toNat * 2 ^ 11) := by
  refine encodedAs_of_toNat hwf ?_
  rw [he, toNat_packR_rs1]
  simp

/-- The word of a command whose only operand is RD. -/
theorem encodedAs_of_rd {i : Instr} {rd : Reg} (o : Opcode) (hwf : i.wellFormed = true)
    (he : encode i = packR 0 0 0 0 0 (regNum rd) o.code) :
    EncodedAs i (o.code.toNat + (regNum rd).toNat * 2 ^ 8) := by
  refine encodedAs_of_toNat hwf ?_
  rw [he, toNat_packR_rd]
  simp

/-! ## The two shapes of a conversion -/

/-- The command `i` of a register converts its value into D by `f`. -/
def ConvertsInto (i : Reg → Instr) (f : Ctrl → DWord → Duration) : Prop :=
  ∀ r s, exec (i r) s = s.finishD (f s.block.ctrl (s.readX r))

/-- The command `j` of a register converts D into it by `g`, or reports RANGE. -/
def ConvertsFrom (j : Reg → Instr) (g : Ctrl → Duration → Option DWord) : Prop :=
  ∀ r s, exec (j r) s = s.finishConversion r (g s.block.ctrl s.block.d)

theorem convertsInto_ts2d : ConvertsInto .ts2d durationOfTimestamp := fun _ _ => rfl

theorem convertsInto_u2d : ConvertsInto .u2d fun _ => durationOfUnsigned := fun _ _ => rfl

theorem convertsInto_s2d : ConvertsInto .s2d fun _ => durationOfSigned := fun _ _ => rfl

theorem convertsInto_h2d : ConvertsInto .h2d fun _ => durationOfShort := fun _ _ => rfl

theorem convertsFrom_d2ts : ConvertsFrom .d2ts timestampOf := fun _ _ => rfl

theorem convertsFrom_d2u : ConvertsFrom .d2u fun _ => unsignedOf := fun _ _ => rfl

theorem convertsFrom_d2s : ConvertsFrom .d2s fun _ => signedOf := fun _ _ => rfl

theorem convertsFrom_d2h : ConvertsFrom .d2h fun _ => shortOf := fun _ _ => rfl

section

variable {i j : Reg → Instr} {f : Ctrl → DWord → Duration} {g : Ctrl → Duration → Option DWord}

theorem ConvertsInto.next (hi : ConvertsInto i f) (s : State) (r : Reg) :
    ∃ t, exec (i r) s = .next t ∧ t.block.d = f s.block.ctrl (s.readX r)
      ∧ Ends .ok false false s t ∧ SameButD s t :=
  ⟨_, hi r s, rfl, finishD_frame s _⟩

theorem ConvertsFrom.accepted (hj : ConvertsFrom j g) {s : State} {v : DWord}
    (h : g s.block.ctrl s.block.d = some v) (rd : Reg) :
    ∃ t, exec (j rd) s = .next t ∧ XWritten rd v s t ∧ Ends .ok false false s t ∧ SameButRegs s t := by
  refine ⟨_, ?_, finishX_frame s rd v false⟩
  rw [hj rd s, h, State.finishConversion_some]

theorem ConvertsFrom.out_of_range (hj : ConvertsFrom j g) {s : State}
    (h : g s.block.ctrl s.block.d = none) (rd : Reg) :
    ∃ t, exec (j rd) s = .next t ∧ Ends .range false false s t ∧ SameButStatus s t := by
  refine ⟨_, ?_, endCommand_frame s .range false false⟩
  rw [hj rd s, h, State.finishConversion_none]

/-! ## One conversion after the other -/

/-- A conversion from D that ended with OK, converted into D again. -/
theorem ConvertsFrom.then_into (hj : ConvertsFrom j g) (hi : ConvertsInto i f) {s t : State} {rd : Reg}
    (hrd : rd ≠ .x0) (hok : t.block.status.err = .ok) (h : exec (j rd) s = .next t) :
    ∃ v u, g s.block.ctrl s.block.d = some v ∧ exec (i rd) t = .next u
      ∧ u.block.d = f s.block.ctrl v := by
  rw [hj rd s] at h
  obtain ⟨v, hv, rfl⟩ := finishConversion_ok h hok
  obtain ⟨u, hu, hd, -⟩ := hi.next ((s.writeX rd v).endCommand .ok false false) rd
  refine ⟨v, u, hv, hu, hd.trans ?_⟩
  exact congrArg (f s.block.ctrl) ((State.writeX_written s rd v).1 hrd)

/-- A conversion into D, converted from D again. -/
theorem ConvertsInto.then_from (hi : ConvertsInto i f) (hj : ConvertsFrom j g) {s : State} {rs rd : Reg}
    {v : DWord} (hrd : rd ≠ .x0) (h : g s.block.ctrl (f s.block.ctrl (s.readX rs)) = some v) :
    ∃ t u, exec (i rs) s = .next t ∧ exec (j rd) t = .next u ∧ u.block.status.err = .ok
      ∧ u.block.ctrl = s.block.ctrl ∧ u.readX rd = v := by
  obtain ⟨t, ht, hd, -, -, ⟨hct, -⟩, -⟩ := hi.next s rs
  rw [← hd, ← hct] at h
  obtain ⟨u, hu, ⟨hv, -⟩, ⟨hok, -⟩, -, ⟨hcu, -⟩, -⟩ := hj.accepted h rd
  exact ⟨t, u, ht, hu, hok, hcu.trans hct, hv hrd⟩

/-- Two round trips of a value, the second of which changes nothing: the value of the first, which stands in
the relation `P` to the start, gives the D that the start gave. -/
theorem ConvertsInto.twice (hi : ConvertsInto i f) (hj : ConvertsFrom j g) {P : DWord → DWord → Prop}
    (h : ∀ c v, ∃ v', g c (f c v) = some v' ∧ f c v' = f c v ∧ P v v') (s : State) (rs : Reg) {rd : Reg}
    (hrd : rd ≠ .x0) :
    ∃ t u v w, exec (i rs) s = .next t ∧ exec (j rd) t = .next u ∧ exec (i rd) u = .next v
      ∧ exec (j rd) v = .next w ∧ u.block.status.err = .ok ∧ w.block.status.err = .ok
      ∧ P (s.readX rs) (u.readX rd) ∧ w.readX rd = u.readX rd := by
  obtain ⟨x, hx, hfix, hP⟩ := h s.block.ctrl (s.readX rs)
  obtain ⟨t, u, ht, hu, huok, hc, hux⟩ := hi.then_from hj hrd hx
  have hagain : g u.block.ctrl (f u.block.ctrl (u.readX rd)) = some x := by rw [hc, hux, hfix, hx]
  obtain ⟨v, w, hv, hw, hwok, -, hwx⟩ := hi.then_from hj hrd hagain
  exact ⟨t, u, v, w, ht, hu, hv, hw, huok, hwok, hux ▸ hP, hwx.trans hux.symm⟩

end

end Sys2Proof.Machine
end

section
/-! SUPPORT. What each of the eight conversions leaves, and the era window (42_convert.md R181 to R191, R198). -/

namespace Sys2Proof.Machine

/-! ## Fixed point to duration -/

theorem eraOf_hiHalf_pivot (c : Ctrl) (v : DWord) (h : c.eraMode = true) :
    c.eraOf (hiHalf v) = if 2 ^ 63 ≤ v.toNat then c.era.toNat else c.era.toNat + 1 := by
  rw [c.eraOf_pivot _ h, toNat_hiHalf]
  split <;> split <;> omega

/-- Settles O38: the fields of TS2D's duration, and the era by bit 63 of the timestamp. -/
theorem ts2dResult : Obligations.Ts2dResult := by
  intro s rs1
  obtain ⟨t, ht, hd, hend⟩ := convertsInto_ts2d.next s rs1
  obtain ⟨hneg, hsecs, hnanos⟩ := durationOfTimestamp_fields s.block.ctrl (s.readX rs1)
  rw [← hd] at hneg hsecs hnanos
  refine ⟨encodedAs_of_rs1 .ts2d rfl rfl, t, _, ht, fun hfixed => ?_, fun hpivot h => ?_, fun hpivot h => ?_,
    hneg, hsecs, ?_, hend⟩
  · exact Ctrl.eraOf_fixed _ _ hfixed
  · rw [eraOf_hiHalf_pivot _ _ hpivot, if_pos h]
  · rw [eraOf_hiHalf_pivot _ _ hpivot, if_neg (Nat.not_le.2 h)]
  · rw [hnanos]
    exact frac32ToNs_floor _

/-- Settles O39: the fields of U2D's duration. -/
theorem u2dResult : Obligations.U2dResult := by
  intro s rs1
  obtain ⟨t, ht, hd, hend⟩ := convertsInto_u2d.next s rs1
  obtain ⟨hneg, hsecs, hnanos⟩ := durationOfUnsigned_fields (s.readX rs1)
  rw [← hd] at hneg hsecs hnanos
  refine ⟨encodedAs_of_rs1 .u2d rfl rfl, t, ht, hneg, hsecs, ?_, hend⟩
  rw [hnanos]
  exact frac32ToNs_floor _

/-- Settles O40: the fields of S2D's duration. -/
theorem s2dResult : Obligations.S2dResult := by
  intro s rs1
  obtain ⟨t, ht, hd, hend⟩ := convertsInto_s2d.next s rs1
  obtain ⟨hsecs, hnanos, hneg⟩ := durationOfSigned_fields (s.readX rs1)
  rw [← hsecs, ← hnanos] at hneg
  rw [← hd] at hneg hsecs hnanos
  refine ⟨encodedAs_of_rs1 .s2d rfl rfl, t, ht, hsecs, ?_, hneg, hend⟩
  rw [hnanos]
  exact frac32ToNs_floor _

/-- Settles O41: the fields of H2D's duration, from the low half of the register. -/
theorem h2dResult : Obligations.H2dResult := by
  intro s rs1
  obtain ⟨t, ht, hd, hend⟩ := convertsInto_h2d.next s rs1
  obtain ⟨hsecs, hnanos, hneg⟩ := durationOfShort_fields (s.readX rs1)
  rw [← hd] at hneg hsecs hnanos
  refine ⟨encodedAs_of_rs1 .h2d rfl rfl, t, loHalf (s.readX rs1), ht, toNat_loHalf _, hsecs, ?_, hneg, hend⟩
  rw [hnanos]
  exact frac16ToNs_floor _

/-! ## The value of D -/

/-- The value of a valid D, in nanoseconds (10_state.md R31). -/
theorem Duration.value_of_valid {d : Duration} (h : d.nanos.toNat < 10 ^ 9) :
    d.value = some ((if d.neg then -1 else 1) * ((d.secs.toNat * 10 ^ 9 + d.nanos.toNat : Nat) : Int)) :=
  if_pos (d.valid_iff.2 h)

/-- Settles O50: D holds the seconds and the era exactly, and the floor of the fraction. -/
theorem conversionWithinOneNanosecond : Obligations.ConversionWithinOneNanosecond := by
  intro s rs
  obtain ⟨t, ht, hd, -⟩ := convertsInto_ts2d.next s rs
  obtain ⟨hneg, hsecs, hnanos⟩ := durationOfTimestamp_fields s.block.ctrl (s.readX rs)
  rw [← hd] at hneg hsecs hnanos
  have hfrac : (s.readX rs).toNat % 2 ^ 32 < 2 ^ 32 := Nat.mod_lt _ (by decide)
  obtain ⟨hlow, hhigh⟩ := frac32ToNs_floor ((s.readX rs).toNat % 2 ^ 32)
  have hval := Duration.value_of_valid (d := t.block.d) (hnanos ▸ frac32ToNs_lt hfrac)
  refine ⟨t, _, _, ht, hval, rfl, ?_, ?_⟩ <;>
    (rw [hneg, hsecs, hnanos]; simp only [Bool.false_eq_true, if_false]; omega)

/-! ## Duration to fixed point -/

/-- Settles O42: the timestamp of an accepted D as a number, or none. -/
theorem d2tsResult : Obligations.D2tsResult := by
  intro s rd
  refine ⟨encodedAs_of_rd .d2ts rfl rfl, fun hvalid hneg hwin => ?_,
    fun h => convertsFrom_d2ts.out_of_range (timestampOf_none _ _ h) rd⟩
  have hsome := timestampOf_some _ _ hvalid hneg hwin
  obtain ⟨t, ht, hframe⟩ := convertsFrom_d2ts.accepted hsome rd
  obtain ⟨-, -, -, hv⟩ := timestampOf_cases hsome
  exact ⟨t, _, _, ht, nsToFrac32_ceil _, hv, hframe⟩

/-- Settles O43: the unsigned value of an accepted D as a number, or none. -/
theorem d2uResult : Obligations.D2uResult := by
  intro s rd
  refine ⟨encodedAs_of_rd .d2u rfl rfl, fun hvalid hneg hlt => ?_,
    fun h => convertsFrom_d2u.out_of_range (unsignedOf_none _ h) rd⟩
  have hsome := unsignedOf_some _ hvalid hneg hlt
  obtain ⟨t, ht, hframe⟩ := convertsFrom_d2u.accepted hsome rd
  obtain ⟨-, -, -, hv⟩ := unsignedOf_cases hsome
  exact ⟨t, _, _, ht, nsToFrac32_ceil _, hv, hframe⟩

/-- Settles O44: the signed value of an accepted D reads back as that value, or there is none. -/
theorem d2sResult : Obligations.D2sResult := by
  intro s rd
  refine ⟨encodedAs_of_rd .d2s rfl rfl, _, _, nsToFrac32_ceil _, rfl, fun hvalid hpos hneg => ?_,
    fun h => convertsFrom_d2s.out_of_range (signedOf_none _ _ rfl h) rd⟩
  obtain ⟨t, ht, hframe⟩ := convertsFrom_d2s.accepted (signedOf_some _ _ rfl hvalid hpos hneg) rd
  have hint := toInt_signed64 _ _ hpos hneg
  exact ⟨t, _, ht, fun h => hint.trans (by rw [h]; rfl), fun h => hint.trans (if_pos h), hframe⟩

/-- Settles O45: the signed pattern of an accepted D reads back as the value, or there is none. -/
theorem d2hResult : Obligations.D2hResult := by
  intro s rd
  refine ⟨encodedAs_of_rd .d2h rfl rfl, _, _, nsToFrac16_ceil _, rfl, fun hvalid hpos hneg => ?_,
    fun h => convertsFrom_d2h.out_of_range (shortOf_none _ _ rfl h) rd⟩
  obtain ⟨t, ht, hframe⟩ := convertsFrom_d2h.accepted (shortOf_some _ _ rfl hvalid hpos hneg) rd
  have hint := toInt_signed32 _ _ hpos hneg
  exact ⟨t, _, ht, fun h => hint.trans (by rw [h]; rfl), fun h => hint.trans (if_pos h), hframe⟩

/-! ## The era window -/

/-- A seconds count is in window exactly when its era and its 32 bits give it back. -/
theorem inEraWindow_iff_eraOf (c : Ctrl) (S : Nat) :
    InEraWindow c S ↔ c.eraOf (BitVec.ofNat 32 (S % 2 ^ 32)) * 2 ^ 32 + S % 2 ^ 32 = S := by
  have hword : (BitVec.ofNat 32 (S % 2 ^ 32)).toNat = S % 2 ^ 32 := by
    rw [BitVec.toNat_ofNat, Nat.mod_mod]
  unfold InEraWindow
  cases hmode : c.eraMode with
  | false =>
    rw [c.eraOf_fixed _ hmode]
    simp only [true_imp_iff, Bool.false_eq_true, false_imp_iff, and_true]
    omega
  | true =>
    rw [c.eraOf_pivot _ hmode, hword]
    simp only [true_imp_iff, Bool.true_eq_false, false_imp_iff, true_and]
    split <;> omega

/-- The first second of the era window: the era's own, or in pivot mode the middle of the era. -/
def Ctrl.windowStart (c : Ctrl) : Nat := c.era.toNat * 2 ^ 32 + if c.eraMode then 2 ^ 31 else 0

theorem inEraWindow_iff_windowStart (c : Ctrl) (S : Nat) :
    InEraWindow c S ↔ c.windowStart ≤ S ∧ S < c.windowStart + 2 ^ 32 := by
  unfold InEraWindow Ctrl.windowStart
  cases c.eraMode with
  | false =>
    simp only [true_imp_iff, Bool.false_eq_true, false_imp_iff, and_true, if_false]
    omega
  | true =>
    simp only [true_imp_iff, Bool.true_eq_false, false_imp_iff, true_and, if_true]
    omega

/-- Settles O46: the window by eras, and by its first second. -/
theorem eraWindowIsOneEraLong : Obligations.EraWindowIsOneEraLong := fun c =>
  ⟨c.inWindow_iff_window, inEraWindow_iff_eraOf c, c.windowStart, inEraWindow_iff_windowStart c⟩

end Sys2Proof.Machine
end

section
/-! SUPPORT. The laws of the conversions: from D and back, and into D and back (42_convert.md R195 to R197). -/

namespace Sys2Proof.Machine

/-! ## Fractions -/

theorem frac32ToNs_nsToFrac32 (n : Nat) : frac32ToNs (nsToFrac32 n) = n := by
  obtain ⟨hc1, hc2⟩ := nsToFrac32_ceil n
  obtain ⟨hf1, hf2⟩ := frac32ToNs_floor (nsToFrac32 n)
  omega

/-- A nanosecond is less than 5 units of 2^-32 s. -/
theorem nsToFrac32_frac32ToNs (f : Nat) :
    f - 4 ≤ nsToFrac32 (frac32ToNs f) ∧ nsToFrac32 (frac32ToNs f) ≤ f := by
  obtain ⟨hf1, hf2⟩ := frac32ToNs_floor f
  obtain ⟨hc1, hc2⟩ := nsToFrac32_ceil (frac32ToNs f)
  omega

theorem nsToFrac16_frac16ToNs (h : Nat) : nsToFrac16 (frac16ToNs h) = h := by
  obtain ⟨hf1, hf2⟩ := frac16ToNs_floor h
  obtain ⟨hc1, hc2⟩ := nsToFrac16_ceil (frac16ToNs h)
  omega

theorem nsToFrac32_eq_zero {n : Nat} : nsToFrac32 n = 0 ↔ n = 0 := by
  obtain ⟨hc1, hc2⟩ := nsToFrac32_ceil n
  omega

/-- Seconds and a fraction, taken apart again. -/
theorem div_mod_two32 {a b : Nat} (hb : b < 2 ^ 32) :
    (a * 2 ^ 32 + b) / 2 ^ 32 = a ∧ (a * 2 ^ 32 + b) % 2 ^ 32 = b := by
  omega

/-! ## Durations by their fields -/

theorem Duration.eq_of_fields {d e : Duration} (hneg : d.neg = true ↔ e.neg = true)
    (hsecs : d.secs.toNat = e.secs.toNat) (hnanos : d.nanos.toNat = e.nanos.toNat) : d = e := by
  cases d
  cases e
  simp only [Duration.mk.injEq]
  exact ⟨Bool.eq_iff_iff.2 hneg, BitVec.eq_of_toNat_eq hnanos, BitVec.eq_of_toNat_eq hsecs⟩

/-- A D is `plainZero d` when it has the magnitude of `d` and is negative exactly when `d` is. -/
theorem eq_plainZero {d e : Duration} (hneg : e.neg = true ↔ NegativeD d)
    (hsecs : e.secs.toNat = d.secs.toNat) (hnanos : e.nanos.toNat = d.nanos.toNat) : e = plainZero d :=
  Duration.eq_of_fields (hneg.trans d.negative_iff.symm) hsecs hnanos

/-- A D whose sign is that of its magnitude is as it comes back. -/
theorem plainZero_of_neg {d : Duration} (h : d.neg = true → NegativeD d) : plainZero d = d :=
  (eq_plainZero ⟨h, And.left⟩ rfl rfl).symm

/-! ## From D and back -/

theorem durationOfUnsigned_unsignedOf {d : Duration} {v : DWord} (h : unsignedOf d = some v) :
    durationOfUnsigned v = plainZero d := by
  obtain ⟨hvalid, hneg, -, hv⟩ := unsignedOf_cases h
  obtain ⟨hdiv, hmod⟩ := div_mod_two32 (a := d.secs.toNat) (nsToFrac32_lt hvalid)
  obtain ⟨hn, hs, hf⟩ := durationOfUnsigned_fields v
  rw [hv, hdiv] at hs
  rw [hv, hmod, frac32ToNs_nsToFrac32] at hf
  exact eq_plainZero (by simp [hn, hneg]) hs hf

theorem durationOfTimestamp_timestampOf {c : Ctrl} {d : Duration} {v : DWord}
    (h : timestampOf c d = some v) : durationOfTimestamp c v = plainZero d := by
  obtain ⟨hvalid, hneg, hwin, hv⟩ := timestampOf_cases h
  obtain ⟨hdiv, hmod⟩ := div_mod_two32 (a := d.secs.toNat % 2 ^ 32) (nsToFrac32_lt hvalid)
  obtain ⟨hn, hs, hf⟩ := durationOfTimestamp_fields c v
  have hhi : hiHalf v = BitVec.ofNat 32 (d.secs.toNat % 2 ^ 32) := by
    apply BitVec.eq_of_toNat_eq
    rw [toNat_hiHalf, hv, hdiv, BitVec.toNat_ofNat, Nat.mod_mod]
  rw [hv, hdiv, hhi, (inEraWindow_iff_eraOf c _).1 hwin] at hs
  rw [hv, hmod, frac32ToNs_nsToFrac32] at hf
  exact eq_plainZero (by simp [hn, hneg]) hs hf

theorem durationOfSigned_signedOf {d : Duration} {v : DWord} (h : signedOf d = some v) :
    durationOfSigned v = plainZero d := by
  obtain ⟨hvalid, hv⟩ := signedOf_cases h
  obtain ⟨hdiv, hmod⟩ := div_mod_two32 (a := d.secs.toNat) (nsToFrac32_lt hvalid)
  have hzero := nsToFrac32_eq_zero (n := d.nanos.toNat)
  have habs : v.toInt.natAbs = d.secs.toNat * 2 ^ 32 + nsToFrac32 d.nanos.toNat := by
    rw [hv]
    split <;> omega
  obtain ⟨hs, hf, hn⟩ := durationOfSigned_fields v
  rw [habs, hdiv] at hs
  rw [habs, hmod, frac32ToNs_nsToFrac32] at hf
  refine eq_plainZero (hn.trans ?_) hs hf
  rw [habs, hdiv, hmod, frac32ToNs_nsToFrac32, hv, NegativeD]
  cases d.neg with
  | false =>
    simp only [Bool.false_eq_true, if_false, false_and, iff_false]
    omega
  | true =>
    simp only [if_true, true_and]
    omega

/-- Settles O47: one conversion after the other, and D from its own fixed-point value. -/
theorem durationRoundTripIsExact : Obligations.DurationRoundTripIsExact := by
  refine ⟨fun n _ => frac32ToNs_nsToFrac32 n, fun s t rd hrd hok => ⟨fun h => ?_, fun h => ?_, fun h => ?_⟩⟩
  · obtain ⟨v, u, hv, hu, hd⟩ := convertsFrom_d2u.then_into convertsInto_u2d hrd hok h
    exact ⟨u, hu, hd.trans (durationOfUnsigned_unsignedOf hv)⟩
  · obtain ⟨v, u, hv, hu, hd⟩ := convertsFrom_d2s.then_into convertsInto_s2d hrd hok h
    exact ⟨u, hu, hd.trans (durationOfSigned_signedOf hv)⟩
  · obtain ⟨v, u, hv, hu, hd⟩ := convertsFrom_d2ts.then_into convertsInto_ts2d hrd hok h
    exact ⟨u, hu, hd.trans (durationOfTimestamp_timestampOf hv)⟩

/-! ## Into D and back -/

/-- What a round trip through D leaves of `m` units of 2^-32 s: the seconds, and the fraction by R180. -/
def tripUnits (m : Nat) : Nat := m / 2 ^ 32 * 2 ^ 32 + nsToFrac32 (frac32ToNs (m % 2 ^ 32))

theorem tripUnits_bounds (m : Nat) : tripUnits m ≤ m ∧ m ≤ tripUnits m + 4 := by
  obtain ⟨h1, h2⟩ := nsToFrac32_frac32ToNs (m % 2 ^ 32)
  unfold tripUnits
  omega

theorem frac32ToNs_mod_lt (m : Nat) : frac32ToNs (m % 2 ^ 32) < 10 ^ 9 :=
  frac32ToNs_lt (Nat.mod_lt m (by decide))

theorem unsignedOf_durationOfUnsigned (v : DWord) :
    ∃ v', unsignedOf (durationOfUnsigned v) = some v' ∧ durationOfUnsigned v' = durationOfUnsigned v
      ∧ v'.toNat ≤ v.toNat ∧ v.toNat ≤ v'.toNat + 4 := by
  obtain ⟨hn, hs, hf⟩ := durationOfUnsigned_fields v
  obtain ⟨v', hv'⟩ : ∃ v', unsignedOf (durationOfUnsigned v) = some v' :=
    ⟨_, unsignedOf_some _ (hf ▸ frac32ToNs_mod_lt _) (by simp [NegativeD, hn]) (by omega)⟩
  obtain ⟨-, -, -, hunits⟩ := unsignedOf_cases hv'
  rw [hs, hf] at hunits
  have hplain := plainZero_of_neg (d := durationOfUnsigned v) (by simp [hn])
  exact ⟨v', hv', (durationOfUnsigned_unsignedOf hv').trans hplain, hunits ▸ tripUnits_bounds v.toNat⟩

theorem timestampOf_durationOfTimestamp (c : Ctrl) (v : DWord) :
    ∃ v', timestampOf c (durationOfTimestamp c v) = some v'
      ∧ durationOfTimestamp c v' = durationOfTimestamp c v
      ∧ v'.toNat ≤ v.toNat ∧ v.toNat ≤ v'.toNat + 4 := by
  obtain ⟨hn, hs, hf⟩ := durationOfTimestamp_fields c v
  have hmod : (durationOfTimestamp c v).secs.toNat % 2 ^ 32 = v.toNat / 2 ^ 32 := by omega
  have hwin : InEraWindow c (durationOfTimestamp c v).secs.toNat := by
    rw [inEraWindow_iff_eraOf, hmod, hs, ← toNat_hiHalf, BitVec.ofNat_toNat, BitVec.setWidth_eq]
  obtain ⟨v', hv'⟩ : ∃ v', timestampOf c (durationOfTimestamp c v) = some v' :=
    ⟨_, timestampOf_some c _ (hf ▸ frac32ToNs_mod_lt _) (by simp [NegativeD, hn]) hwin⟩
  obtain ⟨-, -, -, hunits⟩ := timestampOf_cases hv'
  rw [hmod, hf] at hunits
  have hplain := plainZero_of_neg (d := durationOfTimestamp c v) (by simp [hn])
  exact ⟨v', hv', (durationOfTimestamp_timestampOf hv').trans hplain, hunits ▸ tripUnits_bounds v.toNat⟩

theorem signedOf_durationOfSigned (v : DWord) :
    ∃ v', signedOf (durationOfSigned v) = some v' ∧ durationOfSigned v' = durationOfSigned v
      ∧ v'.toInt.natAbs ≤ v.toInt.natAbs ∧ v.toInt.natAbs ≤ v'.toInt.natAbs + 4
      ∧ (0 ≤ v.toInt → 0 ≤ v'.toInt) ∧ (v.toInt ≤ 0 → v'.toInt ≤ 0) := by
  obtain ⟨hs, hf, hn⟩ := durationOfSigned_fields v
  rw [← hs, ← hf] at hn
  have hm : tripUnits v.toInt.natAbs
      = (durationOfSigned v).secs.toNat * 2 ^ 32 + nsToFrac32 (durationOfSigned v).nanos.toNat := by
    rw [hs, hf, tripUnits]
  obtain ⟨hle, hge⟩ := tripUnits_bounds v.toInt.natAbs
  have hzero := nsToFrac32_eq_zero (n := (durationOfSigned v).nanos.toNat)
  have hlt := v.toInt_lt
  have habs := natAbs_toInt64_le v
  have hpos : (durationOfSigned v).neg = false → tripUnits v.toInt.natAbs ≤ 2 ^ 63 - 1 := fun h => by
    simp only [h, Bool.false_eq_true, false_iff] at hn
    omega
  obtain ⟨v', hv'⟩ : ∃ v', signedOf (durationOfSigned v) = some v' :=
    ⟨_, signedOf_some _ _ hm (hf ▸ frac32ToNs_mod_lt _) hpos (fun _ => by omega)⟩
  obtain ⟨-, hval⟩ := signedOf_cases hv'
  rw [← hm] at hval
  have hplain := plainZero_of_neg (d := durationOfSigned v) fun h => ⟨h, (hn.1 h).2⟩
  refine ⟨v', hv', (durationOfSigned_signedOf hv').trans hplain, ?_⟩
  cases h : (durationOfSigned v).neg with
  | false =>
    simp only [h, Bool.false_eq_true, false_iff, if_false] at hn hval
    omega
  | true =>
    simp only [h, true_iff, if_true] at hn hval
    omega

/-- Settles O48: the fraction by R195, and each pair of commands by the value of its first round trip. -/
theorem fixedPointRoundTripIsStable : Obligations.FixedPointRoundTripIsStable := by
  refine ⟨fun f _ => ?_, fun s rs rd hrd => ?_, fun s rs rd hrd => ?_, fun s rs rd hrd => ?_⟩
  · obtain ⟨hlow, hhigh⟩ := nsToFrac32_frac32ToNs f
    exact ⟨hlow, hhigh, by rw [frac32ToNs_nsToFrac32]⟩
  · obtain ⟨t, u, v, w, ht, hu, hv, hw, huok, hwok, ⟨hle, hge⟩, hsame⟩ :=
      convertsInto_ts2d.twice convertsFrom_d2ts timestampOf_durationOfTimestamp s rs hrd
    exact ⟨t, u, v, w, ht, hu, hv, hw, huok, hwok, hle, hge, hsame⟩
  · obtain ⟨t, u, v, w, ht, hu, hv, hw, huok, hwok, ⟨hle, hge⟩, hsame⟩ :=
      convertsInto_u2d.twice convertsFrom_d2u (fun _ => unsignedOf_durationOfUnsigned) s rs hrd
    exact ⟨t, u, v, w, ht, hu, hv, hw, huok, hwok, hle, hge, hsame⟩
  · obtain ⟨t, u, v, w, ht, hu, hv, hw, huok, hwok, ⟨hle, hge, hpos, hneg⟩, hsame⟩ :=
      convertsInto_s2d.twice convertsFrom_d2s (fun _ => signedOf_durationOfSigned) s rs hrd
    exact ⟨t, u, v, w, ht, hu, hv, hw, huok, hwok, hle, hge, hpos, hneg, hsame⟩

/-! ## Short values -/

theorem loHalf_setWidth (p : Word) : loHalf (p.setWidth 64) = p := by
  apply BitVec.eq_of_toNat_eq
  rw [toNat_loHalf, BitVec.toNat_setWidth_of_le (by decide)]
  exact Nat.mod_eq_of_lt p.isLt

theorem durationOfShort_valid (v : DWord) : (durationOfShort v).nanos.toNat < 10 ^ 9 := by
  obtain ⟨-, hf, -⟩ := durationOfShort_fields v
  rw [hf]
  exact frac16ToNs_lt (Nat.mod_lt _ (by decide))

theorem shortOf_durationOfShort (v : DWord) :
    shortOf (durationOfShort v) = some ((loHalf v).setWidth 64) := by
  obtain ⟨hs, hf, hn⟩ := durationOfShort_fields v
  have hm : (loHalf v).toInt.natAbs
      = (durationOfShort v).secs.toNat * 2 ^ 16 + nsToFrac16 (durationOfShort v).nanos.toNat := by
    rw [hs, hf, nsToFrac16_frac16ToNs]
    omega
  have hlt := (loHalf v).toInt_lt
  have hle := (loHalf v).le_toInt
  have hpos : (durationOfShort v).neg = false → (loHalf v).toInt.natAbs ≤ 2 ^ 31 - 1 := fun h => by
    simp only [h, Bool.false_eq_true, false_iff] at hn
    omega
  have hval : (if (durationOfShort v).neg then -((loHalf v).toInt.natAbs : Int) else (loHalf v).toInt.natAbs)
      = (loHalf v).toInt := by
    split
    next hneg =>
      have := hn.1 hneg
      omega
    next hneg =>
      have := mt hn.2 hneg
      omega
  rw [shortOf_some _ _ hm (durationOfShort_valid v) hpos (fun _ => by omega), hval, BitVec.ofInt_toInt]

/-- The magnitude of H2D's D in nanoseconds is that of the short value, rounded down. -/
theorem durationOfShort_magnitude (v : DWord) :
    IsFloor ((durationOfShort v).secs.toNat * 10 ^ 9 + (durationOfShort v).nanos.toNat)
      ((loHalf v).toInt.natAbs * 10 ^ 9) (2 ^ 16) := by
  obtain ⟨hs, hf, -⟩ := durationOfShort_fields v
  obtain ⟨h1, h2⟩ := frac16ToNs_floor ((loHalf v).toInt.natAbs % 2 ^ 16)
  rw [hs, hf]
  unfold IsFloor
  omega

theorem Duration.valid_of_value {d : Duration} {a : Int} (h : d.value = some a) : d.nanos.toNat < 10 ^ 9 := by
  by_contra hn
  rw [Duration.value, if_neg (mt d.valid_iff.1 hn)] at h
  cases h

theorem Duration.natAbs_value {d : Duration} {a : Int} (h : d.value = some a) :
    a.natAbs = d.secs.toNat * 10 ^ 9 + d.nanos.toNat := by
  rw [Duration.value_of_valid (Duration.valid_of_value h)] at h
  cases h
  split <;> omega

/-- From D to 16.16 and back, the magnitude rises by less than 2^-16 s (42_convert.md R197). -/
theorem durationOfShort_shortOf {d : Duration} {v : DWord} {a : Int} (ha : d.value = some a)
    (h : shortOf d = some v) :
    ∃ b, (durationOfShort v).value = some b ∧ a.natAbs ≤ b.natAbs ∧ b.natAbs ≤ a.natAbs + 15258 := by
  obtain ⟨-, p, rfl, hp⟩ := shortOf_cases h
  have hb := Duration.value_of_valid (durationOfShort_valid (p.setWidth 64))
  refine ⟨_, hb, ?_⟩
  rw [Duration.natAbs_value ha, Duration.natAbs_value hb]
  obtain ⟨hb1, hb2⟩ := durationOfShort_magnitude (p.setWidth 64)
  rw [loHalf_setWidth] at hb1 hb2
  obtain ⟨hc1, hc2⟩ := nsToFrac16_ceil d.nanos.toNat
  have habs : p.toInt.natAbs = d.secs.toNat * 2 ^ 16 + nsToFrac16 d.nanos.toNat := by
    rw [hp]
    split <;> omega
  omega

/-- Settles O49: the fraction, the command pair that gives its input back, and the pair that rounds up. -/
theorem shortRoundTripIsExact : Obligations.ShortRoundTripIsExact := by
  refine ⟨fun h _ => nsToFrac16_frac16ToNs h, fun s rs rd hrd => ?_, fun s t rd a hrd ha h hok => ?_⟩
  · obtain ⟨t, u, ht, hu, hok, -, hv⟩ :=
      convertsInto_h2d.then_from convertsFrom_d2h hrd (shortOf_durationOfShort (s.readX rs))
    refine ⟨t, u, ht, hu, hok, ?_⟩
    rw [hv, BitVec.toNat_setWidth_of_le (by decide), toNat_loHalf]
  · obtain ⟨v, u, hv, hu, hd⟩ := convertsFrom_d2h.then_into convertsInto_h2d hrd hok h
    obtain ⟨b, hb, hbounds⟩ := durationOfShort_shortOf ha hv
    exact ⟨u, b, hu, hd ▸ hb, hbounds⟩

end Sys2Proof.Machine
end

section
/-! SUPPORT. TSUB, OFFSET and DELAY: their words, what each leaves, the true differences across eras, and that
they read nothing but their source registers (43_arith.md R220 to R229). -/

namespace Sys2Proof.Machine

/-! ## Command words -/

/-- The word of a command whose operands are registers. -/
theorem encodedAs_of_registers {i : Instr} {rd a b c d : BitVec 3} (o : Opcode) (hwf : i.wellFormed = true)
    (he : encode i = packR 0#9 d c b a rd o.code) :
    EncodedAs i (o.code.toNat + rd.toNat * 2 ^ 8 + a.toNat * 2 ^ 11 + b.toNat * 2 ^ 14 + c.toNat * 2 ^ 17
      + d.toNat * 2 ^ 20) := by
  refine encodedAs_of_toNat hwf ?_
  rw [he, toNat_packR, BitVec.toNat_ofNat]
  omega

theorem encodedAs_tsub (rd a b : Reg) :
    EncodedAs (.tsub rd a b)
      (0x30 + (regNum rd).toNat * 2 ^ 8 + (regNum a).toNat * 2 ^ 11 + (regNum b).toNat * 2 ^ 14) := by
  have h := encodedAs_of_registers (i := .tsub rd a b) (c := 0#3) (d := 0#3) .tsub rfl rfl
  simpa [Opcode.code] using h

/-! ## What each command leaves -/

/-- Settles O51: the difference of the bit patterns is the one modulo 2^64, and sdiff is its signed reading. -/
theorem tsubResult : Obligations.TsubResult := by
  refine fun s rd rs1 rs2 => ⟨encodedAs_tsub rd rs1 rs2, _, _, exec_tsub rd rs1 rs2 s, ?_, rfl,
    finishX_frame s rd _ false⟩
  rw [BitVec.toNat_sub]
  omega

/-- OFFSET writes the floor of half the exact sum, as a signed number (43_arith.md R222, R226). -/
theorem exec_offset_floor (s : State) (rd r1 r2 r3 r4 : Reg) :
    ∃ t v, exec (.offset rd r1 r2 r3 r4) s = .next t
      ∧ 2 * BitVec.toInt v ≤ offsetSum (s.readX r1) (s.readX r2) (s.readX r3) (s.readX r4)
      ∧ offsetSum (s.readX r1) (s.readX r2) (s.readX r3) (s.readX r4) < 2 * BitVec.toInt v + 2
      ∧ XWritten rd v s t ∧ Ends .ok false false s t ∧ SameButRegs s t := by
  refine ⟨_, _, exec_offset rd r1 r2 r3 r4 s, ?_, ?_, finishX_frame s rd _ false⟩
  all_goals
    rw [offset_fits]
    omega

/-- Settles O52. -/
theorem offsetResult : Obligations.OffsetResult := fun s rd r1 r2 r3 r4 =>
  ⟨encodedAs_of_registers .offset rfl rfl, exec_offset_floor s rd r1 r2 r3 r4⟩

/-- DELAY whose exact delay is negative writes 0 and warns (43_arith.md R223). -/
theorem exec_delay_clamped {s : State} {r1 r2 r3 r4 : Reg} (rd : Reg)
    (h : exactDelay (s.readX r1) (s.readX r2) (s.readX r3) (s.readX r4) < 0) :
    ∃ t, exec (.delay rd r1 r2 r3 r4) s = .next t
      ∧ XWritten rd 0#64 s t ∧ Ends .ok false true s t ∧ SameButRegs s t :=
  ⟨_, State.finishDelay_negative s rd _ h, finishX_frame s rd _ true⟩

/-- DELAY whose exact delay is not negative writes it without loss (43_arith.md R223, R226). -/
theorem exec_delay_exact {s : State} {r1 r2 r3 r4 : Reg} (rd : Reg)
    (h : 0 ≤ exactDelay (s.readX r1) (s.readX r2) (s.readX r3) (s.readX r4)) :
    ∃ t v, exec (.delay rd r1 r2 r3 r4) s = .next t
      ∧ (BitVec.toNat v : Int) = exactDelay (s.readX r1) (s.readX r2) (s.readX r3) (s.readX r4)
      ∧ XWritten rd v s t ∧ Ends .ok false false s t ∧ SameButRegs s t :=
  ⟨_, _, State.finishDelay_exact s rd _ h, delay_fits _ _ _ _ h, finishX_frame s rd _ false⟩

/-- Settles O53: the clamped and the exact delay. -/
theorem delayResult : Obligations.DelayResult := fun _ rd _ _ _ _ =>
  ⟨encodedAs_of_registers .delay rfl rfl, _, rfl, exec_delay_clamped rd, exec_delay_exact rd⟩

/-! ## Instants in whatever eras -/

/-- The sum OFFSET halves is the true one, where its two differences are in the window of R225. -/
theorem offsetSum_ofInt {A1 A2 A3 A4 : Int} (h21 : -2 ^ 63 ≤ A2 - A1) (h21' : A2 - A1 < 2 ^ 63)
    (h34 : -2 ^ 63 ≤ A3 - A4) (h34' : A3 - A4 < 2 ^ 63) :
    offsetSum (BitVec.ofInt 64 A1) (BitVec.ofInt 64 A2) (BitVec.ofInt 64 A3) (BitVec.ofInt 64 A4)
      = (A2 - A1) + (A3 - A4) := by
  rw [offsetSum, sdiff_ofInt A2 A1 h21 h21', sdiff_ofInt A3 A4 h34 h34']

/-- The exact delay is the true one, where its two differences are in the window of R225. -/
theorem exactDelay_ofInt {A1 A2 A3 A4 : Int} (h41 : -2 ^ 63 ≤ A4 - A1) (h41' : A4 - A1 < 2 ^ 63)
    (h32 : -2 ^ 63 ≤ A3 - A2) (h32' : A3 - A2 < 2 ^ 63) :
    exactDelay (BitVec.ofInt 64 A1) (BitVec.ofInt 64 A2) (BitVec.ofInt 64 A3) (BitVec.ofInt 64 A4)
      = (A4 - A1) - (A3 - A2) := by
  rw [exactDelay, sdiff_ofInt A4 A1 h41 h41', sdiff_ofInt A3 A2 h32 h32']

/-- Settles O54: the true difference, the true sum and the true delay in the results of the three commands. -/
theorem eraIndependence : Obligations.EraIndependence := by
  refine ⟨fun A B hlo hhi => ⟨sdiff_ofInt A B hlo hhi, fun s rd a b hrd ha hb => ?_⟩,
    fun s rd r1 r2 r3 r4 A1 A2 A3 A4 hrd h1 h2 h3 h4 =>
      ⟨fun h21 h21' h34 h34' => ?_, fun h41 h41' h32 h32' => ?_⟩⟩
  · obtain ⟨-, t, v, ht, -, hv, ⟨hw, -⟩, -⟩ := tsubResult s rd a b
    exact ⟨t, ht, by rw [hw hrd, hv, ha, hb, sdiff_ofInt A B hlo hhi]⟩
  · obtain ⟨t, v, ht, hle, hlt, ⟨hw, -⟩, -⟩ := exec_offset_floor s rd r1 r2 r3 r4
    rw [h1, h2, h3, h4, offsetSum_ofInt h21 h21' h34 h34', ← hw hrd] at hle hlt
    exact ⟨t, ht, hle, hlt⟩
  · have hd : exactDelay (s.readX r1) (s.readX r2) (s.readX r3) (s.readX r4) = (A4 - A1) - (A3 - A2) := by
      rw [h1, h2, h3, h4, exactDelay_ofInt h41 h41' h32 h32']
    rcases lt_or_ge ((A4 - A1) - (A3 - A2)) 0 with hneg | hpos
    · obtain ⟨t, ht, ⟨hw, -⟩, -⟩ := exec_delay_clamped rd (hd ▸ hneg)
      exact ⟨t, ht, fun hpos => absurd hneg (not_lt.2 hpos), fun _ => hw hrd⟩
    · obtain ⟨t, v, ht, hv, ⟨hw, -⟩, -⟩ := exec_delay_exact rd (hd ▸ hpos)
      exact ⟨t, ht, fun _ => by rw [hw hrd, hv, hd], fun hneg => absurd hneg (not_lt.2 hpos)⟩

/-- Settles O55: the floor of half a sum is 0 exactly when the sum is 0 or 1, and the spec's example. -/
theorem offsetZeroExactly : Obligations.OffsetZeroExactly := by
  refine ⟨fun s rd r1 r2 r3 r4 hrd => ?_, fun s rd r1 r2 r3 r4 hrd h1 h2 h3 h4 => ?_⟩
  all_goals obtain ⟨t, v, ht, hle, hlt, ⟨hw, -⟩, -⟩ := exec_offset_floor s rd r1 r2 r3 r4
  · refine ⟨t, ht, ?_⟩
    rw [offsetSum] at hle hlt
    rw [hw hrd, ← BitVec.toInt_inj, BitVec.toInt_zero]
    omega
  · have hsum : offsetSum 0#64 0x100000000#64 0x100000000#64 0x400000000#64 = -2 ^ 33 := by decide
    rw [h1, h2, h3, h4, hsum, ← hw hrd] at hle hlt
    exact ⟨t, ht, by omega⟩

/-- Settles O56: in either order of the instants the true delay is not negative. -/
theorem orderedDelayIsExact : Obligations.OrderedDelayIsExact := by
  intro s rd r1 r2 r3 r4 A1 A2 A3 A4 hrd h1 h2 h3 h4 h14 h41 h23 h32 hord
  have hd : exactDelay (s.readX r1) (s.readX r2) (s.readX r3) (s.readX r4) = (A4 - A1) - (A3 - A2) := by
    rw [h1, h2, h3, h4, exactDelay_ofInt (by omega) h41 (by omega) h32]
  have hpos : 0 ≤ (A4 - A1) - (A3 - A2) := by omega
  obtain ⟨t, v, ht, hv, ⟨hw, -⟩, ⟨-, -, hwarn, -⟩, -⟩ := exec_delay_exact rd (hd ▸ hpos)
  exact ⟨t, ht, by rw [hw hrd, hv, hd], hwarn⟩

/-! ## What the commands read -/

/-- The two states agree on a command's destination, on its code and on its warnings. -/
def SameReport (rd : Reg) (t v : State) : Prop :=
  t.readX rd = v.readX rd ∧ t.block.status.err = v.block.status.err
    ∧ t.block.status.wUnsync = v.block.status.wUnsync ∧ t.block.status.wNegdly = v.block.status.wNegdly

theorem endCommand_writeX_sameReport (s u : State) (rd : Reg) (x : DWord) (c : Code) (m n : Bool) :
    SameReport rd ((s.writeX rd x).endCommand c m n) ((u.writeX rd x).endCommand c m n) :=
  ⟨readX_writeX_agree s u rd x, rfl, rfl, rfl⟩

theorem finishX_sameReport (s u : State) (rd : Reg) (x : DWord) :
    ∃ t v, s.finishX rd x = .next t ∧ u.finishX rd x = .next v ∧ SameReport rd t v :=
  ⟨_, _, State.finishX_next s rd x, State.finishX_next u rd x, endCommand_writeX_sameReport s u rd x _ _ _⟩

theorem finishDelay_sameReport (s u : State) (rd : Reg) (d : Int) :
    ∃ t v, s.finishDelay rd d = .next t ∧ u.finishDelay rd d = .next v ∧ SameReport rd t v := by
  rcases lt_or_ge d 0 with hd | hd
  · exact ⟨_, _, State.finishDelay_negative s rd d hd, State.finishDelay_negative u rd d hd,
      endCommand_writeX_sameReport s u rd _ _ _ _⟩
  · exact ⟨_, _, State.finishDelay_exact s rd d hd, State.finishDelay_exact u rd d hd,
      endCommand_writeX_sameReport s u rd _ _ _ _⟩

/-- Settles O57: each command ends with a value made of its sources alone. -/
theorem arithmeticReadsOnlySources : Obligations.ArithmeticReadsOnlySources := by
  intro s u rd r1 r2 r3 r4 h1 h2
  refine ⟨?_, fun h3 h4 => ⟨?_, ?_⟩⟩
  · rw [exec_tsub, exec_tsub, h1, h2]
    exact finishX_sameReport s u rd _
  · rw [exec_offset, exec_offset, h1, h2, h3, h4]
    exact finishX_sameReport s u rd _
  · rw [exec_delay, exec_delay, h1, h2, h3, h4]
    exact finishDelay_sameReport s u rd _

end Sys2Proof.Machine
end


section
/-! SUPPORT. When a step can change the block, and what the reset signal leaves in it (10_state.md R20 to R33;
60_exceptions.md R264; 70_reset_and_hazards.md R280, R281). -/

namespace Sys2Proof.Machine

/-! ## When the block can change -/

/-- With nothing pending a step holds the state (60_exceptions.md R264). -/
theorem step_idle {s : State} (h : s.pending = []) : step s = .next s := by
  simp only [step, h]

/-- An access that lands on a word is the 32-bit access at that word's address (20_memory.md R61). -/
theorem locate_word_address {base bits addr : Nat} {w : BusWord} (h : locate base bits addr = .word w) :
    bits = 32 ∧ addr = base + w.offset := by
  obtain ⟨hbits, hle, h4, hw⟩ := locate_word h
  have hoff := offset_of_busWordAt h4 hw
  exact ⟨hbits, by omega⟩

/-- The host events that can change the block (70_reset_and_hazards.md R281): the reset signal and a legal write. -/
theorem StepShape.block_changed {s t : State} (h : StepShape s t) (hne : t.block ≠ s.block) :
    ∃ rest, s.pending = .reset :: rest
      ∨ ∃ (w : BusWord) (v : Word), s.pending = .write 32 (s.base + w.offset) v :: rest := by
  cases h with
  | idle _ => exact absurd rfl hne
  | reset rest hp => exact ⟨rest, .inl hp⟩
  | read _ _ _ _ _ _ => exact absurd rfl hne
  | store bits addr v rest hp w hl _ =>
    obtain ⟨rfl, rfl⟩ := locate_word_address hl
    exact ⟨rest, .inr ⟨w, v, hp⟩⟩
  | command bits addr v rest hp hl _ _ =>
    obtain ⟨rfl, rfl⟩ := locate_word_address hl
    exact ⟨rest, .inr ⟨.cmd, v, hp⟩⟩

/-- Settles O10: of the shapes of a step, the idle one and a read keep the block. -/
theorem onlyResetOrWriteChangesBlock : Obligations.OnlyResetOrWriteChangesBlock :=
  ⟨fun _ => step_idle, fun _ _ h => (step_shape_of_next h).block_changed, rfl⟩

/-! ## What reset leaves -/

theorem Block.reset_x_read (r : Reg) : Block.reset.x.read r = 0#64 := by
  cases r <;> rfl

theorem Block.reset_rp_read (k : ReplyReg) : Block.reset.rp.read k = 0#64 := by
  cases k <;> rfl

theorem Block.reset_pkt_read (a : Nat) : Memory.read Block.reset.pkt a = 0#8 := rfl

/-- CTRL's reset value selects the fixed era 0 (10_state.md R25, 42_convert.md R181). -/
theorem Block.reset_eraOf (sec : Word) : Block.reset.ctrl.eraOf sec = 0 :=
  Ctrl.eraOf_fixed _ sec rfl

/-- Settles O11: the step leaves the reset block, whose registers, STATUS, CTRL and bytes read as R280 says. -/
theorem resetSetsEveryValue : Obligations.ResetSetsEveryValue := by
  intro s rest hp
  have hstep : step s = .next { s with pending := rest, block := Block.reset } := step_reset s rest hp
  have hstatus : Block.reset.status.word = 0x00000000#32 := by decide
  have hctrl : Block.reset.ctrl.word = 0x00000001#32 := by decide
  exact ⟨_, hstep, Block.reset_x_read, hstatus, rfl, hctrl, rfl, rfl, rfl, Block.reset_eraOf, rfl, rfl,
    Block.reset_rp_read, Block.reset_pkt_read, rfl, rfl⟩

end Sys2Proof.Machine
end
